-- ==== Sys2Proof/Word.lean ====
section
/-! DEFINITION. The bit vectors of the block (spec/00_scope.md R5, R6, R7). -/

namespace Sys2Proof

/-- A register value or an instruction word: XLEN = ILEN = 32 bits (R5). -/
abbrev Word := BitVec 32

/-- One byte of an image of the instruction memory (R54). -/
abbrev Byte := BitVec 8

/-- A register index: a 5-bit field, so each one names a register (R20). -/
abbrev RegIdx := BitVec 5

/-- The 16-bit immediate field (R5 IMM_W). -/
abbrev Imm16 := BitVec 16

/-- The 6-bit opcode field (R70). -/
abbrev Opcode := BitVec 6

end Sys2Proof
end

