-- ==== Sys2Proof/Config.lean ====
section
/-! DEFINITION. The parameters of the block (spec/00_scope.md R5), each with the value the spec
gives or decides, and the free values: what the spec leaves unspecified. -/

namespace Sys2Proof

/-- The two opcode numbers that the spec makes parameters (R5, R76, D1). -/
structure OpcodeMap where
  /-- OPC_BEQ -/
  beq : Opcode
  /-- OPC_BNE -/
  bne : Opcode
  deriving DecidableEq, Repr

/-- How a byte image of PROG orders the bytes of a word (IMAGE_BYTE_ORDER, R54, D12). -/
inductive ByteOrder where
  | mostSignificantFirst
  | leastSignificantFirst
  deriving DecidableEq, Repr

namespace Config

/-- OPC_ADDI, a constant of the block (R5, R75). -/
def opcAddi : Opcode := 8

/-- OPC_BEQ = 4 and OPC_BNE = 5: the spec's decision D1 (R76). Entry 1. -/
def opcodes : OpcodeMap := { beq := 4, bne := 5 }

/-- REG_RESET: the value of registers 1 to 31 after reset, the spec's decision D3 (R182). Entry 3. -/
def regReset : Word := 0

/-- The greatest LEN: 2^31 - 32768, the spec's decision D4 (R5). Entry 2. -/
def lenMax : Nat := 2147450880

/-- The order the spec recommends (R54, D12). Entry 5. -/
def imageByteOrder : ByteOrder := .mostSignificantFirst

/-- FREE VALUE: `fault_opcode` after a fatal condition that does not write it (R33, U6). Entry 9. -/
opaque freeFaultOpcode : Nat → Opcode

/-- FREE VALUE: `fault_pc` after a fatal condition that does not write it (R33, U6). Entry 9. -/
opaque freeFaultPc : Nat → Word

/-- FREE VALUE: `fault_target` after a fatal condition that does not write it (R33, U6). Entry 9. -/
opaque freeFaultTarget : Nat → Word

/-- FREE VALUE: `ret_value` of an ADDI with rt = 0 (R41, U4). Entry 9. -/
opaque freeRetValue : Nat → Word

end Config
end Sys2Proof
end

