-- ==== Sys2Proof/Syntax.lean ====
section
/-! DEFINITION. The three instructions (spec/30_encoding.md R74, R77), one constructor per row of
spec/opcode_table.json. The operands are the fields of the word, so no operand is out of range. -/

namespace Sys2Proof

/-- An instruction of the subset (ADDI, BEQ, BNE), operands in the order of the word's fields (R70). -/
inductive Instr where
  /-- ADDI: `rs` source, `rt` destination, `imm` addend (R74, R120). -/
  | addi (rs rt : RegIdx) (imm : Imm16)
  /-- BEQ: `rs`, `rt` compared, `imm` the offset in words (R74, R130). -/
  | beq (rs rt : RegIdx) (imm : Imm16)
  /-- BNE: `rs`, `rt` compared, `imm` the offset in words (R74, R131). -/
  | bne (rs rt : RegIdx) (imm : Imm16)
  deriving DecidableEq, Repr

/-- Which of the three operations an instruction is (`ret_kind`, R41). -/
inductive Kind where
  | addi
  | beq
  | bne
  deriving DecidableEq, Repr

namespace Instr

/-- The operation. -/
def kind : Instr → Kind
  | .addi _ _ _ => .addi
  | .beq _ _ _ => .beq
  | .bne _ _ _ => .bne

/-- The field at bits 25:21. -/
def rs : Instr → RegIdx
  | .addi rs _ _ => rs
  | .beq rs _ _ => rs
  | .bne rs _ _ => rs

/-- The field at bits 20:16. -/
def rt : Instr → RegIdx
  | .addi _ rt _ => rt
  | .beq _ rt _ => rt
  | .bne _ rt _ => rt

/-- The field at bits 15:0. -/
def imm : Instr → Imm16
  | .addi _ _ imm => imm
  | .beq _ _ imm => imm
  | .bne _ _ imm => imm

end Instr
end Sys2Proof
end

