-- ==== Sys2Proof/WellFormed.lean ====
section
/-! DEFINITION. What must hold of the parameters of the block (spec/00_scope.md R5). An instruction
needs no check of its own: its operands are bit fields and the spec gives every value of them a
meaning (spec/30_encoding.md R77: "none of them is reserved"). Entry 13. -/

namespace Sys2Proof

/-- "The three opcode parameters must be pairwise distinct and none may be 0" (R5). -/
abbrev OpcodeMap.wf (m : OpcodeMap) : Prop :=
  m.beq ≠ m.bne ∧ m.beq ≠ Config.opcAddi ∧ m.bne ≠ Config.opcAddi ∧ m.beq ≠ 0 ∧ m.bne ≠ 0

/-- LEN is within the spec's bound (R5, D4). -/
abbrev lenOk (progLen : Word) : Prop := progLen.toNat ≤ Config.lenMax

end Sys2Proof
end

