-- ==== Sys2Proof/Decode.lean ====
section
/-! DEFINITION. The Bitfield Decoder and its inverse (spec/30_encoding.md R70 to R80), and the byte
image of a word (spec/20_memory.md R54). -/

namespace Sys2Proof

/-- DecodedFields: what the decoder cuts from every word, whatever its opcode (R70). -/
structure Fields where
  opcode : Opcode
  rs : RegIdx
  rt : RegIdx
  rd : RegIdx
  imm : Imm16
  funct : BitVec 11
  deriving DecidableEq, Repr

/-- The decoder: pure and total (R70, R71, R72). -/
def fields (w : Word) : Fields :=
  { opcode := w.extractLsb' 26 6
    rs := w.extractLsb' 21 5
    rt := w.extractLsb' 16 5
    rd := w.extractLsb' 11 5
    imm := w.extractLsb' 0 16
    funct := w.extractLsb' 0 11 }

/-- The closed set of decode results: the three operations or the opcode rejected by name (R77). -/
inductive Decoded where
  | instr (i : Instr)
  | unimplemented (opcode : Opcode)
  deriving DecidableEq, Repr

/-- The selection looks at the opcode and at nothing else; OPC_BEQ and OPC_BNE are arguments
(R77, R78, R5). -/
def classify (m : OpcodeMap) (w : Word) : Decoded :=
  let f := fields w
  if f.opcode = Config.opcAddi then .instr (.addi f.rs f.rt f.imm)
  else if f.opcode = m.beq then .instr (.beq f.rs f.rt f.imm)
  else if f.opcode = m.bne then .instr (.bne f.rs f.rt f.imm)
  else .unimplemented f.opcode

/-- The decoder of this block: the opcode numbers of Config (R76, D1). -/
def decode (w : Word) : Decoded := classify Config.opcodes w

/-- A word of format I: opcode, rs, rt, immediate (R70). -/
def formatI (op : Opcode) (rs rt : RegIdx) (imm : Imm16) : Word := op ++ rs ++ rt ++ imm

/-- The opcode that selects an operation (R75, R76). -/
def opcodeOf (m : OpcodeMap) : Kind → Opcode
  | .addi => Config.opcAddi
  | .beq => m.beq
  | .bne => m.bne

/-- The word of an instruction (R70, R75, R76), for any opcode numbers. -/
def encodeWith (m : OpcodeMap) (i : Instr) : Word :=
  formatI (opcodeOf m i.kind) i.rs i.rt i.imm

/-- The word of an instruction of this block. -/
def encode (i : Instr) : Word := encodeWith Config.opcodes i

/-- The word that four consecutive bytes of an image hold (R54, D12). -/
def wordOfBytes (o : ByteOrder) (b0 b1 b2 b3 : Byte) : Word :=
  match o with
  | .mostSignificantFirst => b0 ++ b1 ++ b2 ++ b3
  | .leastSignificantFirst => b3 ++ b2 ++ b1 ++ b0

/-- The byte of a word that stands `k` bytes after the word's first byte in an image (R54, D12). -/
def byteOfWord (o : ByteOrder) (w : Word) (k : Nat) : Byte :=
  match o with
  | .mostSignificantFirst => w.extractLsb' (8 * (3 - k)) 8
  | .leastSignificantFirst => w.extractLsb' (8 * k) 8

/-- The four bytes of a word in the order of the image. -/
def bytesOfWord (o : ByteOrder) (w : Word) : List Byte :=
  [byteOfWord o w 0, byteOfWord o w 1, byteOfWord o w 2, byteOfWord o w 3]

/-- Why bytes are no instruction. -/
inductive Reject where
  /-- The opcode is none of the three (R78). -/
  | unimplementedOpcode (opcode : Opcode)
  /-- Fewer than the four bytes of a word (R70: one length). -/
  | truncated (count : Nat)
  deriving DecidableEq, Repr

/-- Decode the first word of a byte image: the instruction and the bytes after it, or the reason.
Total on every list of bytes. -/
def decodeBytes : List Byte → Except Reject (Instr × List Byte)
  | b0 :: b1 :: b2 :: b3 :: rest =>
    match decode (wordOfBytes Config.imageByteOrder b0 b1 b2 b3) with
    | .instr i => .ok (i, rest)
    | .unimplemented op => .error (.unimplementedOpcode op)
  | short => .error (.truncated short.length)

/-- The word whose low `nbits` bits are `w`'s and whose other bits are 0 (spec/opcode_table.json
numbers the bits of a 32-bit word from its least significant one). -/
def tableWord (nbits w : Nat) : Word := BitVec.ofNat 32 (w % 2 ^ nbits)

/-- The instruction the decoder reads from a word of the opcode table, laid out as an image. A word
longer than 32 bits is no instruction (R70). -/
def decodeTableWord (nbits w : Nat) : Option Instr :=
  if nbits ≤ 32 then
    match decodeBytes (bytesOfWord Config.imageByteOrder (tableWord nbits w)) with
    | .ok (i, _) => some i
    | .error _ => none
  else none

end Sys2Proof
end

