-- ==== Sys2Proof/Machine/State.lean ====
section
/-! DEFINITION. The state of the block as plain data (spec/10_state.md), its reset value
(spec/70_reset_and_hazards.md R180 to R184) and the reasons a step can stop. -/

namespace Sys2Proof.Machine

/-- The run status: three values and no fourth (R32). -/
inductive RunStatus where
  | running
  | haltedNormal
  | haltedFatal
  deriving DecidableEq, Repr

/-- `fault_cause` (R33, R150). -/
inductive FaultCause where
  | none
  | unimplementedOpcode
  | illegalBranchTarget
  deriving DecidableEq, Repr

/-- The byte image of the instruction memory: byte `4 * i + k` is byte `k` of `IMem(i)`; addresses
strictly rising. An address that is not listed holds nothing: reading it stops the machine. Entry 6. -/
abbrev Memory := List Host.Cell

/-- What the spec gives the block (x, pc, status, the fault record), the inputs its environment
drives (PROG, LEN, trace_en, rst; no step changes one), and the model's own counter of free values. -/
structure State where
  /-- The 32 general registers (R20). -/
  x : Vector Word 32
  /-- The index of the instruction to execute: a count of words, signed (R26). -/
  pc : Word
  /-- The run status (R32). -/
  status : RunStatus
  /-- The fault record (R33): the cause. -/
  faultCause : FaultCause
  /-- The fault record (R33): the opcode field of an unimplemented word. -/
  faultOpcode : Opcode
  /-- The fault record (R33): the index of an unimplemented word. -/
  faultPc : Word
  /-- The fault record (R33): the rejected branch target, signed. -/
  faultTarget : Word
  /-- PROG (R50), as a byte image. -/
  mem : Memory
  /-- LEN, the port `prog_len` (R37, R50). -/
  progLen : Word
  /-- The port `trace_en` (R40). -/
  traceEn : Bool
  /-- The port `rst` (R37): true while reset is asserted. -/
  rst : Bool
  /-- The MODEL's own: numbers the free values drawn so far. Entry 9. -/
  freeIndex : Nat
  deriving DecidableEq, Repr

/-- Why a step stops with a fault. No run of a loaded block reaches either. -/
inductive Fault where
  /-- Raised by the fetch when pc is below 0 or above LEN, which the spec says cannot arise
  (R29, R52). Safe: the machine stops where the spec gives no behaviour. Entry 6. -/
  | pcOutsideProgram
  /-- Raised by the fetch at an index below LEN whose word nobody loaded, against R185. Safe: the
  machine stops where the spec gives no behaviour. Entry 6. -/
  | programWordMissing
  deriving DecidableEq, Repr

/-- Why a step is refused. -/
inductive Refusal where
  /-- Raised by exec's arm of an instruction that has no meaning yet (none is left). Safe. -/
  | notModelled (mnemonic : String)
  /-- Raised by the fetch attempt when LEN is above the bound: the spec refuses such a configuration
  (93_implementation_defined.md U8, D4). Safe. -/
  | progLenAboveBound
  deriving DecidableEq, Repr

/-- The block at the first boundary after reset (R180 to R184), nothing loaded (entry 6), tracing
off (entry 7), `rst` released. The three fault record fields that the spec leaves unspecified are 0
here by DESIGN CHOICE (entry 4); registers 1 to 31 are REG_RESET (entry 3). -/
def State.reset : State :=
  { x := (Vector.replicate 32 Config.regReset).set 0 0
    pc := 0
    status := .running
    faultCause := .none
    faultOpcode := 0
    faultPc := 0
    faultTarget := 0
    mem := []
    progLen := 0
    traceEn := false
    rst := false
    freeIndex := 0 }

end Sys2Proof.Machine
end

