-- ==== Sys2Proof/Machine/Operands.lean ====
section
/-! DEFINITION. The operand forms: a register index used directly (spec/30_encoding.md R74) and the
sign-extended immediate (R73, spec/00_scope.md R8). -/

namespace Sys2Proof.Machine

/-- `sext_32(v)`: the immediate widened to the register width, its sign kept (R8, R73). -/
def sext32 (v : Imm16) : Word := v.signExtend 32

/-- `sint_16(v)`: the immediate as a signed integer, -32768 to 32767 (R8, R73). -/
def sint16 (v : Imm16) : Int := v.toInt

/-- `x[i]`: read a general register (R20, R24). -/
def State.readReg (s : State) (i : RegIdx) : Word := s.x[i.toNat]'i.isLt

/-- The source register of ADDI plus its addend, modulo 2^32 (R120, R121). -/
def State.addend (s : State) (rs : RegIdx) (imm : Imm16) : Word := s.readReg rs + sext32 imm

end Sys2Proof.Machine
end

