-- ==== Sys2Proof/Machine/Flags.lean ====
section
/-! DEFINITION. The block has no flags and no condition codes (spec/10_state.md R30). What takes
their place is the comparison of BEQ and BNE and the per-cycle `pending` value it sets
(spec/42_branch.md R132, spec/10_state.md R36). -/

namespace Sys2Proof.Machine

/-- `x[rs] = x[rt]`, all 32 bits taking part (R132). -/
def State.regsEqual (s : State) (rs rt : RegIdx) : Bool := s.readReg rs == s.readReg rt

/-- The `pending` value a branch handler leaves: its offset in words when the condition holds
(R130, R131). -/
def pendingWhen (taken : Bool) (imm : Imm16) : Option Int :=
  if taken then some (sint16 imm) else none

end Sys2Proof.Machine
end

