-- ==== Sys2Proof/Machine/Ops.lean ====
section
/-! DEFINITION. The named operations: the byte image of the instruction memory
(spec/20_memory.md R50 to R57), register writes (spec/10_state.md R22, R23), the moves of pc, the
normal halt (spec/40_execution_cycle.md R101), the entry to Halted-Fatal (spec/60_exceptions.md R151,
R152), the Branch Resolver (spec/42_branch.md R134) and reset (spec/70_reset_and_hazards.md R180). -/

namespace Sys2Proof.Machine

/-! ### The instruction memory -/

/-- The canonical form: addresses strictly rising. (An unlisted address holds nothing, so no entry
equals what one reads as.) -/
abbrev Memory.wf (m : Memory) : Prop := m.Pairwise fun a b => a.1 < b.1

/-- One byte of the image, if it was loaded. -/
def Memory.readByte : Memory → Nat → Option Byte
  | [], _ => none
  | c :: m, a => if c.1 = a then some c.2 else Memory.readByte m a

/-- Load one byte. Only the environment loads: no instruction writes memory (R53, R60). -/
def Memory.writeByte : Memory → Nat → Byte → Memory
  | [], a, b => [(a, b)]
  | c :: m, a, b =>
    if a < c.1 then (a, b) :: c :: m
    else if a = c.1 then (a, b) :: m
    else c :: Memory.writeByte m a b

/-- `IMem(i)`: the word at index i (R51), if all of it was loaded. -/
def Memory.imem (m : Memory) (i : Nat) : Option Word :=
  match m.readByte (4 * i), m.readByte (4 * i + 1), m.readByte (4 * i + 2), m.readByte (4 * i + 3) with
  | some b0, some b1, some b2, some b3 => some (wordOfBytes Config.imageByteOrder b0 b1 b2 b3)
  | _, _, _, _ => none

/-- Load the word at index i (R50, R185): the Word Loader's act, before a run. -/
def Memory.writeWord (m : Memory) (i : Nat) (w : Word) : Memory :=
  (((m.writeByte (4 * i) (byteOfWord Config.imageByteOrder w 0)).writeByte (4 * i + 1)
    (byteOfWord Config.imageByteOrder w 1)).writeByte (4 * i + 2)
    (byteOfWord Config.imageByteOrder w 2)).writeByte (4 * i + 3)
    (byteOfWord Config.imageByteOrder w 3)

/-- LEN as an integer: the port is unsigned (R37). -/
def State.len (s : State) : Int := s.progLen.toNat

/-- The fetch of `IMem(pc)`, at 0 <= pc < LEN only (R52, R102). -/
def State.fetch (s : State) : Except Fault Word :=
  if 0 ≤ s.pc.toInt ∧ s.pc.toInt < s.len then
    match s.mem.imem s.pc.toInt.toNat with
    | some w => .ok w
    | none => .error .programWordMissing
  else .error .pcOutsideProgram

/-! ### Registers -/

/-- `x[i] <- v` (R24). A write to register 0 lands, until the cycle clears it (R23). -/
def State.writeReg (s : State) (i : RegIdx) (v : Word) : State :=
  { s with x := s.x.set i.toNat v i.isLt }

/-- `x[0] <- 0`, unconditionally (R105). -/
def State.clearX0 (s : State) : State := s.writeReg 0 0

/-! ### The program counter and the run status -/

/-- `pc <- pc + 1`, the sequential advance (R28). -/
def State.advance (s : State) : State := { s with pc := s.pc + 1 }

/-- `pc <- t`, a redirect (R28, R106). -/
def State.redirect (s : State) (t : Int) : State := { s with pc := BitVec.ofInt 32 t }

/-- The normal halt: status and nothing else (R101). -/
def State.haltNormal (s : State) : State := { s with status := .haltedNormal }

/-- Count one free-value number as used (entry 9). -/
def State.nextFree (s : State) : State := { s with freeIndex := s.freeIndex + 1 }

/-! ### Taking a fatal condition, and reset, the only way back -/

/-- The cause of a fatal condition with what it records (R150). -/
inductive FatalInfo where
  | unimplementedOpcode (opcode : Opcode) (pc : Word)
  | illegalBranchTarget (target : Int)
  deriving DecidableEq, Repr

/-- Entering Halted-Fatal, the whole of trap entry (R151, R152, R156): the status and the fault
record change; x and pc do not; control goes nowhere. The record fields the cause does not write are
unspecified afterwards (R33, U6): free values. -/
def State.raise (s : State) : FatalInfo → State
  | .unimplementedOpcode opcode pc =>
    { s with
      status := .haltedFatal
      faultCause := .unimplementedOpcode
      faultOpcode := opcode
      faultPc := pc
      faultTarget := Config.freeFaultTarget s.freeIndex }
  | .illegalBranchTarget target =>
    { s with
      status := .haltedFatal
      faultCause := .illegalBranchTarget
      faultOpcode := Config.freeFaultOpcode s.freeIndex
      faultPc := Config.freeFaultPc s.freeIndex
      faultTarget := BitVec.ofInt 32 target }

/-- Reset: the reset state of R180 to R184; nothing of an earlier run survives. The inputs are the
environment's and stay as it drives them (R38, R185). -/
def State.resetRun (s : State) : State :=
  { State.reset with
    mem := s.mem
    progLen := s.progLen
    traceEn := s.traceEn
    rst := s.rst }

/-! ### The end of a cycle -/

/-- The target of a taken branch: its own index plus the signed word offset, an exact sum (R133). -/
def State.target (s : State) (offset : Int) : Int := s.pc.toInt + offset

/-- The Branch Resolver (R134): `pending` absent or 0 advances (R135); otherwise the target is
checked against 0 and LEN, LEN included, before pc is written. -/
def State.resolve (s : State) (pending : Option Int) : State :=
  match pending with
  | none => s.advance
  | some offset =>
    if offset = 0 then s.advance
    else if s.target offset < 0 ∨ s.target offset > s.len then
      s.raise (.illegalBranchTarget (s.target offset))
    else s.redirect (s.target offset)

/-- What every cycle does after its handler returns (R100): register 0 is cleared (R105), then the
resolver writes pc (R106) and `pending` is discarded (R107). -/
def State.endCycle (s : State) (pending : Option Int) : State :=
  (s.clearX0.resolve pending).nextFree

end Sys2Proof.Machine
end

