-- ==== Sys2Proof/Machine/Arith.lean ====
section
/-! DEFINITION. The arithmetic family: ADDI (spec/41_addi.md). -/

namespace Sys2Proof.Machine

/-- ADDI: `x[rt] <- x[rs] + sext_32(imm)` modulo 2^32, no trap; `pending` stays none (R120). -/
def execAddi (rs rt : RegIdx) (imm : Imm16) (s : State) : Host.Outcome State Fault Refusal :=
  .next ((s.writeReg rt (s.addend rs imm)).endCycle none)

end Sys2Proof.Machine
end

