-- ==== Sys2Proof/Machine/Branch.lean ====
section
/-! DEFINITION. The control-transfer family: BEQ and BNE (spec/42_branch.md). -/

namespace Sys2Proof.Machine

/-- BEQ: the offset is pending when the registers are equal (R130). No register is written. -/
def execBeq (rs rt : RegIdx) (imm : Imm16) (s : State) : Host.Outcome State Fault Refusal :=
  .next (s.endCycle (pendingWhen (s.regsEqual rs rt) imm))

/-- BNE: the offset is pending when the registers differ (R131). No register is written. -/
def execBne (rs rt : RegIdx) (imm : Imm16) (s : State) : Host.Outcome State Fault Refusal :=
  .next (s.endCycle (pendingWhen (!s.regsEqual rs rt) imm))

/-- Whether the condition of a branch holds; none for an ADDI (R130, R131). -/
def State.taken (s : State) : Instr → Option Bool
  | .addi _ _ _ => none
  | .beq rs rt _ => some (s.regsEqual rs rt)
  | .bne rs rt _ => some (!s.regsEqual rs rt)

/-- The `pending` value an instruction's handler leaves (R36, R100). -/
def State.pending (s : State) (i : Instr) : Option Int :=
  match s.taken i with
  | none => none
  | some taken => pendingWhen taken i.imm

end Sys2Proof.Machine
end

