-- ==== Sys2Proof/Machine/Dispatch.lean ====
section
/-! DEFINITION. The Execution Dispatcher: a pure mapping from operation to handler
(spec/40_execution_cycle.md R103). -/

namespace Sys2Proof.Machine

/-- Run one instruction to the end of its cycle: the closed table of three operations (R103). -/
def exec (i : Instr) (s : State) : Host.Outcome State Fault Refusal :=
  match i with
  | .addi rs rt imm => Sys2Proof.Machine.execAddi rs rt imm s
  | .beq rs rt imm => Sys2Proof.Machine.execBeq rs rt imm s
  | .bne rs rt imm => Sys2Proof.Machine.execBne rs rt imm s

end Sys2Proof.Machine
end

