-- ==== Sys2Proof/Machine/Cycle.lean ====
section
/-! DEFINITION. The execution cycle (spec/40_execution_cycle.md R100): which of the cycle's events a
state is due, in the fixed order of checks (spec/60_exceptions.md R155), and the cycle itself. -/

namespace Sys2Proof.Machine

/-- What the next cycle does. -/
inductive Event where
  /-- `rst` is asserted: the state takes its reset values (R37, R180). -/
  | reset
  /-- The block is halted: nothing changes (R108). -/
  | frozen
  /-- LEN is above the bound: no such configuration (U8). -/
  | refuse
  /-- Fetch attempt at the end index (R101). -/
  | halt
  /-- A fetch the spec gives no behaviour. -/
  | fetchFault (f : Fault)
  /-- The fetched word's opcode is not one of the three (R78, R151). -/
  | unimplemented (opcode : Opcode)
  /-- A fetched word and the instruction it is (R103). -/
  | dispatch (w : Word) (i : Instr)
  deriving DecidableEq, Repr

/-- What dispatch finds in a fetched word (R103). -/
def dispatchEvent (w : Word) : Event :=
  match decode w with
  | .unimplemented opcode => .unimplemented opcode
  | .instr i => .dispatch w i

/-- The event of a running block's cycle (R100, R155). -/
def State.runningEvent (s : State) : Event :=
  if ¬ lenOk s.progLen then .refuse
  else if s.pc.toInt = s.len then .halt
  else
    match s.fetch with
    | .error f => .fetchFault f
    | .ok w => dispatchEvent w

/-- The event of the next cycle, in the order of R155. -/
def State.event (s : State) : Event :=
  if s.rst then .reset
  else
    match s.status with
    | .running => s.runningEvent
    | .haltedNormal => .frozen
    | .haltedFatal => .frozen

/-- What each event does to the state (R100). -/
def State.perform (s : State) : Event → Host.Outcome State Fault Refusal
  | .reset => .next s.resetRun
  | .frozen => .next s
  | .refuse => .refused .progLenAboveBound
  | .halt => .next s.haltNormal
  | .fetchFault f => .fault f
  | .unimplemented opcode => .next (s.raise (.unimplementedOpcode opcode s.pc)).nextFree
  | .dispatch _ i => exec i s

/-- One execution cycle (R100). -/
def cycle (s : State) : Host.Outcome State Fault Refusal := s.perform s.event

/-- LEN after a word is placed at pc: kept where pc is already inside the program, else pc + 1. -/
def State.lenCoveringPc (s : State) : Word :=
  if lenOk s.progLen ∧ s.pc.toNat < s.progLen.toNat then s.progLen else s.pc + 1

/-- The loader's act for one word (R185): `w` stands at pc, LEN covers it, and the block runs. -/
def State.placeWord (s : State) (w : Word) : State :=
  { s with
    mem := s.mem.writeWord s.pc.toNat w
    progLen := s.lenCoveringPc
    status := .running
    rst := false }

end Sys2Proof.Machine
end

