-- ==== Sys2Proof/Machine/Step.lean ====
section
/-! DEFINITION. One step is one execution cycle (spec/40_execution_cycle.md R100,
spec/00_scope.md R9). -/

namespace Sys2Proof.Machine

/-- One step of the block. -/
def step (s : State) : Host.Outcome State Fault Refusal := cycle s

/-- `s` with an opcode-table word placed where the next step fetches, and the program covering it
(entry 6). -/
def State.withFetchWord (s : State) (nbits w : Nat) : State := s.placeWord (tableWord nbits w)

end Sys2Proof.Machine
end

