-- ==== Sys2Proof/Machine/Asm.lean ====
section
/-! DEFINITION. The assembly notation the source writes instructions in (spec/30_encoding.md R81,
R82; spec/10_state.md R21). It is for reading; nothing in the cycle depends on it. -/

namespace Sys2Proof.Machine

/-- `$` and the decimal index (R21). -/
def renderReg (r : RegIdx) : String := "$" ++ toString r.toNat

/-- The lower-case mnemonic (R81). -/
def renderKind : Kind → String
  | .addi => "addi"
  | .beq => "beq"
  | .bne => "bne"

/-- The two register operands in the order of the notation: for `addi` the destination comes first,
the reverse of their order in the word (R81). -/
def writtenRegs (i : Instr) : RegIdx × RegIdx :=
  match i.kind with
  | .addi => (i.rt, i.rs)
  | .beq => (i.rs, i.rt)
  | .bne => (i.rs, i.rt)

/-- The instruction as text, its immediate a signed decimal number (R82). -/
def render (i : Instr) : String :=
  renderKind i.kind ++ " " ++ renderReg (writtenRegs i).1 ++ ", " ++ renderReg (writtenRegs i).2 ++ ", "
    ++ toString i.imm.toInt

end Sys2Proof.Machine
end

