-- ==== Sys2Proof/Machine/Outputs.lean ====
section
/-! DEFINITION. The block's outputs (spec/10_state.md R37 to R41): functions of the state, on which
nothing in the cycle depends. -/

namespace Sys2Proof.Machine

/-- The suggested code of the status: 00, 01, 10; 11 is never produced (R32). -/
def RunStatus.code : RunStatus → BitVec 2
  | .running => 0b00
  | .haltedNormal => 0b01
  | .haltedFatal => 0b10

/-- The code of the cause (R150). -/
def FaultCause.code : FaultCause → Nat
  | .none => 0
  | .unimplementedOpcode => 1
  | .illegalBranchTarget => 2

/-- The output ports that are driven continuously from the state (R37, R39). -/
structure Outputs where
  imemAddr : Word
  status : BitVec 2
  faultCause : Nat
  faultOpcode : Opcode
  faultPc : Word
  faultTarget : Word
  deriving DecidableEq, Repr

/-- R37, R39. -/
def State.outputs (s : State) : Outputs :=
  { imemAddr := s.pc
    status := s.status.code
    faultCause := s.faultCause.code
    faultOpcode := s.faultOpcode
    faultPc := s.faultPc
    faultTarget := s.faultTarget }

/-- The record the block presents for a dispatched instruction (R41). A field the spec gives to
some instructions only is an Option. `ret_valid` is whether there is a record. -/
structure RetireEvent where
  pc : Word
  word : Word
  kind : Kind
  rs : RegIdx
  rt : RegIdx
  imm : Int
  /-- ADDI only: the resulting value of rt. -/
  value : Option Word
  /-- BEQ and BNE only: whether the condition held. -/
  taken : Option Bool
  /-- BEQ and BNE with the condition true only: pc + offset, whatever the resolver then does. -/
  target : Option Int
  deriving DecidableEq, Repr

/-- `ret_value` of an ADDI: the sum, or for rt = 0 a value the spec leaves open (U4). -/
def State.retValue (s : State) (rs rt : RegIdx) (imm : Imm16) : Word :=
  if rt = 0 then Config.freeRetValue s.freeIndex else s.addend rs imm

/-- `ret_value` (R41). -/
def State.retireValue (s : State) : Instr → Option Word
  | .addi rs rt imm => some (s.retValue rs rt imm)
  | .beq _ _ _ => none
  | .bne _ _ _ => none

/-- The record of one dispatched instruction (R41). -/
def State.retireRecord (s : State) (w : Word) (i : Instr) : RetireEvent :=
  { pc := s.pc
    word := w
    kind := i.kind
    rs := i.rs
    rt := i.rt
    imm := sint16 i.imm
    value := s.retireValue i
    taken := s.taken i
    target := (s.pending i).map s.target }

/-- The retire event of the cycle that steps from `s`: one for a dispatched instruction while
`trace_en` is 1, none otherwise (R40, R41). -/
def State.retireEvent (s : State) : Option RetireEvent :=
  match s.event with
  | .dispatch w i => if s.traceEn then some (s.retireRecord w i) else none
  | .reset => none
  | .frozen => none
  | .refuse => none
  | .halt => none
  | .fetchFault _ => none
  | .unimplemented _ => none

end Sys2Proof.Machine
end

