-- ==== Sys2Proof/Safety.lean ====
section
/-! DEFINITION. The invariants of a run (spec/40_execution_cycle.md R110, spec/10_state.md R22, R29)
and what the environment owes the block (spec/70_reset_and_hazards.md R185). -/

namespace Sys2Proof.Machine

/-- Every word of PROG was loaded (R185): each index below LEN holds one. -/
abbrev State.Loaded (s : State) : Prop := ∀ i < s.progLen.toNat, (s.mem.imem i).isSome = true

/-- The state of a Halted-Fatal block after UnimplementedOpcode (R110). -/
def State.UnimplementedHalt (s : State) : Prop :=
  ∃ w, s.fetch = .ok w ∧ decode w = .unimplemented s.faultOpcode ∧
    s.faultOpcode = (fields w).opcode ∧ s.faultPc = s.pc

/-- The state of a Halted-Fatal block after IllegalBranchTarget (R110): the word at pc is a branch
whose condition holds on the registers as they stand, and the recorded target is its bad sum. -/
def State.IllegalBranchHalt (s : State) : Prop :=
  ∃ w i k, s.fetch = .ok w ∧ decode w = .instr i ∧ s.pending i = some k ∧ k ≠ 0 ∧
    s.faultTarget.toInt = s.pc.toInt + k ∧ (s.pc.toInt + k < 0 ∨ s.pc.toInt + k > s.len)

/-- What each status says of the rest of the state (R110). -/
def State.StatusCoherent (s : State) : Prop :=
  match s.status with
  | .running => s.faultCause = .none
  | .haltedNormal => s.pc.toInt = s.len ∧ s.faultCause = .none
  | .haltedFatal =>
    (s.faultCause = .unimplementedOpcode ∧ s.UnimplementedHalt) ∨
    (s.faultCause = .illegalBranchTarget ∧ s.IllegalBranchHalt)

/-- What holds at every instruction boundary of every run (R22, R29, R110). -/
structure State.Inv (s : State) : Prop where
  /-- Register 0 is 0 (R22). -/
  zero : s.readReg 0 = 0
  /-- LEN is within the bound (R5). -/
  lenOk : lenOk s.progLen
  /-- pc is an index of the program or the end index (R29). -/
  pcLow : 0 ≤ s.pc.toInt
  pcHigh : s.pc.toInt ≤ s.len
  /-- The image of PROG is in its canonical form. -/
  memWf : s.mem.wf
  /-- Status, pc and fault record agree (R110). -/
  coherent : s.StatusCoherent

/-- The fault record (R33) is the same. -/
abbrev State.SameRecord (s t : State) : Prop :=
  t.faultCause = s.faultCause ∧ t.faultOpcode = s.faultOpcode ∧ t.faultPc = s.faultPc ∧
    t.faultTarget = s.faultTarget

/-- What the environment drives is the same: every byte of PROG's image, LEN, `trace_en`, `rst`. -/
def State.SameInputs (s t : State) : Prop :=
  t.mem = s.mem ∧ (∀ a, t.mem.readByte a = s.mem.readByte a) ∧ t.progLen = s.progLen ∧
    t.traceEn = s.traceEn ∧ t.rst = s.rst

/-- The block is about to execute the word `w` (R102): running, reset released, LEN within its
bound, `w` at pc. -/
abbrev State.Executes (s : State) (w : Word) : Prop :=
  s.rst = false ∧ s.status = .running ∧ lenOk s.progLen ∧ s.fetch = .ok w

/-- `n` cycles from `s` (R100). -/
def runFrom (n : Nat) (s : State) : Host.Outcome State Fault Refusal := Host.Core.run core n s

/-- The final state of a run from `s`: the state at the first boundary at which it is not Running
(R110). -/
def EndsIn (s t : State) : Prop :=
  ∃ n, runFrom n s = .next t ∧ t.status ≠ .running ∧
    ∀ m < n, ∀ u, runFrom m s = .next u → u.status = .running

end Sys2Proof.Machine
end

