-- ==== Sys2Proof/Certificates/Slice0/Obligations.lean ====
section
/-! DEFINITION. The statements for the provers, family by family of spec/. A docstring names the
rule or section a statement formalises, and the spec's decision or the log entry it rests on. -/

open Sys2Proof Sys2Proof.Machine

/-! ### Encoding (spec/30_encoding.md) -/

/-- R70, R75, R76: for any legal opcode numbers (D1 makes them parameters) and every instruction with
every operand, decoding its word gives it back. -/
def Obligations.DecodeOfEncodeIsTheInstruction : Prop :=
  (∀ (m : OpcodeMap) (i : Instr), m.wf → classify m (encodeWith m i) = .instr i) ∧
    ∀ i : Instr, decode (encode i) = .instr i

/-- R77: a word that decodes to an instruction is that instruction's only word. -/
def Obligations.EncodeOfDecodeIsTheWord : Prop :=
  ∀ (m : OpcodeMap) (w : Word) (i : Instr), classify m w = .instr i → encodeWith m i = w

/-- R70, whole: one length of four bytes; the same six fields of every word, each at its place; the
immediate sign-extended to 32 bits; the three instructions laid out opcode, rs, rt, immediate. -/
def Obligations.DecoderCutsTheSixFields : Prop :=
  (∀ w : Word,
    (fields w).opcode.toNat = w.toNat / 67108864 ∧
    (fields w).rs.toNat = w.toNat / 2097152 % 32 ∧
    (fields w).rt.toNat = w.toNat / 65536 % 32 ∧
    (fields w).rd.toNat = w.toNat / 2048 % 32 ∧
    (fields w).imm.toNat = w.toNat % 65536 ∧
    (fields w).funct.toNat = w.toNat % 2048 ∧
    (sext32 (fields w).imm).toInt =
      if w.toNat % 65536 < 32768 then ((w.toNat % 65536 : Nat) : Int)
      else ((w.toNat % 65536 : Nat) : Int) - 65536) ∧
  (∀ (m : OpcodeMap) (i : Instr),
    (encodeWith m i).toNat = (opcodeOf m i.kind).toNat * 67108864 + i.rs.toNat * 2097152 +
      i.rt.toNat * 65536 + i.imm.toNat) ∧
  ∀ (bs rest : List Byte) (i : Instr), decodeBytes bs = .ok (i, rest) →
    bs.length = rest.length + 4

/-- R77, R78, R80 (with D1's opcode numbers): a word is rejected exactly when its opcode is none of
the three, by that opcode; 61 of the 64 opcodes are rejected. -/
def Obligations.RejectedWordsAreTheOtherOpcodes : Prop :=
  (∀ (m : OpcodeMap) (w : Word) (op : Opcode), classify m w = .unimplemented op ↔
    op = (fields w).opcode ∧ op ≠ Config.opcAddi ∧ op ≠ m.beq ∧ op ≠ m.bne) ∧
  (∀ (m : OpcodeMap) (v w : Word) (op : Opcode), (fields v).opcode = (fields w).opcode →
    classify m v = .unimplemented op → classify m w = .unimplemented op) ∧
  ((List.range 64).filter fun n =>
    BitVec.ofNat 6 n ≠ Config.opcAddi ∧ BitVec.ofNat 6 n ≠ Config.opcodes.beq ∧
      BitVec.ofNat 6 n ≠ Config.opcodes.bne).length = 61

/-- 95_test_vectors.md V-DEC (BEQ and BNE under D1): words written out in the spec decode as it says. -/
def Obligations.SpecWordsDecodeAsWritten : Prop :=
  decode 0x20010005 = .instr (.addi 0 1 5) ∧
  decode 0x23FF8000 = .instr (.addi 31 31 0x8000) ∧
  decode 0x10648000 = .instr (.beq 3 4 0x8000) ∧
  decode 0x17FE7FFF = .instr (.bne 31 30 0x7FFF) ∧
  decode 0x00221820 = .unimplemented 0 ∧
  decode 0x8C030000 = .unimplemented 35 ∧
  decode 0xFFFFFFFF = .unimplemented 63

/-- R54 with the spec's recommendation D12: the four bytes of a word, most significant first, decode
as the word does, and the bytes after them are left. -/
def Obligations.ByteImageDecodesAsItsWord : Prop :=
  ∀ (b0 b1 b2 b3 : Byte) (rest : List Byte) (w : Word),
    w.toNat = b0.toNat * 16777216 + b1.toNat * 65536 + b2.toNat * 256 + b3.toNat →
    (∀ i, decode w = .instr i → decodeBytes (b0 :: b1 :: b2 :: b3 :: rest) = .ok (i, rest)) ∧
    (∀ op, decode w = .unimplemented op →
      decodeBytes (b0 :: b1 :: b2 :: b3 :: rest) = .error (.unimplementedOpcode op))

/-- R8, R73: `sext_32` and `sint_16` by cases, that they denote the same number, and its range. -/
def Obligations.SignExtensionKeepsTheNumber : Prop :=
  ∀ v : Imm16,
    (sext32 v).toNat = (if v.toNat < 32768 then v.toNat else v.toNat + 0xFFFF0000) ∧
    sint16 v = (if v.toNat < 32768 then (v.toNat : Int) else (v.toNat : Int) - 65536) ∧
    (sext32 v).toInt = sint16 v ∧ -32768 ≤ sint16 v ∧ sint16 v ≤ 32767

/-- R21, R81, R82: the notation of the source's two written instructions and of a BNE. -/
def Obligations.AssemblyNotation : Prop :=
  render (.addi 0 1 5) = "addi $1, $0, 5" ∧ render (.beq 1 1 0xFFFF) = "beq $1, $1, -1" ∧
    render (.bne 31 0 0x8000) = "bne $31, $0, -32768"

/-! ### ADDI (spec/41_addi.md) -/

/-- 41_addi.md section 1 (R120): for every form and every state, ADDI completes: rt holds the sum
(for rt = 0 nothing does), pc advances, and nothing else changes (register 0 is cleared). -/
def Obligations.AddiResultAndFrame : Prop :=
  ∀ (rs rt : RegIdx) (imm : Imm16) (s : State), ∃ t, exec (.addi rs rt imm) s = .next t ∧
    (rt ≠ 0 → t.readReg rt = s.readReg rs + sext32 imm) ∧
    (∀ r, r ≠ rt → r ≠ 0 → t.readReg r = s.readReg r) ∧ t.readReg 0 = 0 ∧
    t.pc = s.pc + 1 ∧ t.status = s.status ∧ s.SameRecord t ∧ s.SameInputs t

/-- R121, whole: the sum is modulo 2^32 on patterns, and at once the signed sum wrapped; no trap, no
flag. -/
def Obligations.AddiAddsModulo2Pow32 : Prop :=
  ∀ (rs rt : RegIdx) (imm : Imm16) (s : State), rt ≠ 0 →
    ∃ t, exec (.addi rs rt imm) s = .next t ∧
      (t.readReg rt).toNat = ((s.readReg rs).toNat + (sext32 imm).toNat) % 4294967296 ∧
      (∃ k : Int, (t.readReg rt).toInt = (s.readReg rs).toInt + sint16 imm + k * 4294967296) ∧
      -2147483648 ≤ (t.readReg rt).toInt ∧ (t.readReg rt).toInt ≤ 2147483647 ∧
      t.status = s.status ∧ t.faultCause = s.faultCause

/-- R104, whole: sources are read before anything is written, also when source and destination are
one register; a source register 0 reads 0; ADDI writes one register, a branch none. -/
def Obligations.SourcesAreReadBeforeTheWrite : Prop :=
  (∀ (r : RegIdx) (imm : Imm16) (s : State), r ≠ 0 →
    ∃ t, exec (.addi r r imm) s = .next t ∧ t.readReg r = s.readReg r + sext32 imm) ∧
  (∀ (rs rt : RegIdx) (imm : Imm16) (s : State), rt ≠ 0 →
    ∃ t, exec (.addi rs rt imm) s = .next t ∧ t.readReg rt = s.readReg rs + sext32 imm) ∧
  (∀ (rt : RegIdx) (imm : Imm16) (s : State), rt ≠ 0 → s.readReg 0 = 0 →
    ∃ t, exec (.addi 0 rt imm) s = .next t ∧ t.readReg rt = sext32 imm) ∧
  (∀ (rs : RegIdx) (imm : Imm16) (s : State), s.readReg 0 = 0 →
    s.pending (.beq 0 rs imm) = (if s.readReg rs = 0 then some (sint16 imm) else none) ∧
    s.pending (.bne 0 rs imm) = (if s.readReg rs = 0 then none else some (sint16 imm))) ∧
  (∀ (i : Instr) (s t : State), s.readReg 0 = 0 → exec i s = .next t →
    ∀ r, t.readReg r ≠ s.readReg r → i.kind = .addi ∧ r = i.rt)

/-- R23 (an inference the spec marks as its own): with register 0 at 0, writing and clearing is the
same as not writing register 0 at all. -/
def Obligations.WriteThenClearEqualsSuppressedWrite : Prop :=
  ∀ (rs rt : RegIdx) (imm : Imm16) (s : State), s.readReg 0 = 0 →
    exec (.addi rs rt imm) s =
      .next (if rt = 0 then s else s.writeReg rt (s.readReg rs + sext32 imm)).advance.nextFree

/-- 70_reset_and_hazards.md section 3 (R187): the next instruction reads the new value of a register
that ADDI just wrote. -/
def Obligations.NextInstructionSeesTheNewValue : Prop :=
  ∀ (rs rt rd : RegIdx) (a b : Imm16) (s : State), rt ≠ 0 → rd ≠ 0 →
    ∃ t u, exec (.addi rs rt a) s = .next t ∧ exec (.addi rt rd b) t = .next u ∧
      u.readReg rd = s.readReg rs + sext32 a + sext32 b ∧
      t.pending (.beq rt rt b) = some (sint16 b) ∧ t.pending (.bne rt rt b) = none

/-! ### BEQ, BNE and the Branch Resolver (spec/42_branch.md) -/

/-- 42_branch.md section 1 (R130, with R134 and R135): BEQ completes at pc + 1 when the registers
differ or its offset is 0, and at pc + offset when they are equal and the target is legal; it writes
no register (register 0 stays cleared) and nothing else. -/
def Obligations.BeqResultAndFrame : Prop :=
  ∀ (rs rt : RegIdx) (imm : Imm16) (s : State),
    (s.readReg rs ≠ s.readReg rt ∨ imm = 0 →
      ∃ t, exec (.beq rs rt imm) s = .next t ∧ t.pc = s.pc + 1 ∧
        (∀ r, r ≠ 0 → t.readReg r = s.readReg r) ∧ t.readReg 0 = 0 ∧
        t.status = s.status ∧ s.SameRecord t ∧ s.SameInputs t) ∧
    (s.readReg rs = s.readReg rt → imm ≠ 0 → 0 ≤ s.pc.toInt + sint16 imm →
      s.pc.toInt + sint16 imm ≤ s.len →
      ∃ t, exec (.beq rs rt imm) s = .next t ∧ t.pc = BitVec.ofInt 32 (s.pc.toInt + sint16 imm) ∧
        (∀ r, r ≠ 0 → t.readReg r = s.readReg r) ∧ t.readReg 0 = 0 ∧
        t.status = s.status ∧ s.SameRecord t ∧ s.SameInputs t)

/-- 42_branch.md section 1 (R131, with R134 and R135): as BEQ, the condition negated. -/
def Obligations.BneResultAndFrame : Prop :=
  ∀ (rs rt : RegIdx) (imm : Imm16) (s : State),
    (s.readReg rs = s.readReg rt ∨ imm = 0 →
      ∃ t, exec (.bne rs rt imm) s = .next t ∧ t.pc = s.pc + 1 ∧
        (∀ r, r ≠ 0 → t.readReg r = s.readReg r) ∧ t.readReg 0 = 0 ∧
        t.status = s.status ∧ s.SameRecord t ∧ s.SameInputs t) ∧
    (s.readReg rs ≠ s.readReg rt → imm ≠ 0 → 0 ≤ s.pc.toInt + sint16 imm →
      s.pc.toInt + sint16 imm ≤ s.len →
      ∃ t, exec (.bne rs rt imm) s = .next t ∧ t.pc = BitVec.ofInt 32 (s.pc.toInt + sint16 imm) ∧
        (∀ r, r ≠ 0 → t.readReg r = s.readReg r) ∧ t.readReg 0 = 0 ∧
        t.status = s.status ∧ s.SameRecord t ∧ s.SameInputs t)

/-- 60_exceptions.md section 1 (R152): a BEQ or BNE whose condition holds, with a non-zero offset and
a target below 0 or above LEN, takes IllegalBranchTarget. That pc keeps the branch's index and that
the record exists are the spec's decision D10. -/
def Obligations.TakenBranchOutOfRangeIsFatal : Prop :=
  ∀ (rs rt : RegIdx) (imm : Imm16) (s : State) (i : Instr),
    (i = .beq rs rt imm ∧ s.readReg rs = s.readReg rt) ∨
      (i = .bne rs rt imm ∧ s.readReg rs ≠ s.readReg rt) →
    imm ≠ 0 → (s.pc.toInt + sint16 imm < 0 ∨ s.pc.toInt + sint16 imm > s.len) →
    ∃ t, exec i s = .next t ∧ t.status = .haltedFatal ∧ t.faultCause = .illegalBranchTarget ∧
      t.faultTarget = BitVec.ofInt 32 (s.pc.toInt + sint16 imm) ∧ t.pc = s.pc ∧
      (∀ r, r ≠ 0 → t.readReg r = s.readReg r) ∧ t.readReg 0 = 0 ∧ s.SameInputs t

/-- R33 (the record is the spec's decision D10): at a boundary of a run the recorded target is the
exact sum, in [-32768, -1] or [LEN + 1, LEN + 32766]. -/
def Obligations.RejectedTargetIsRecordedExactly : Prop :=
  ∀ (i : Instr) (s t : State), s.Inv → s.pc.toInt < s.len → s.status = .running →
    exec i s = .next t → t.status = .haltedFatal →
    t.faultTarget.toInt = s.pc.toInt + sint16 i.imm ∧
      ((-32768 ≤ t.faultTarget.toInt ∧ t.faultTarget.toInt ≤ -1) ∨
        (s.len + 1 ≤ t.faultTarget.toInt ∧ t.faultTarget.toInt ≤ s.len + 32766))

/-- R133, whole: the target of a taken branch is the exact sum of its own index and the signed word
offset; the reach excludes the branch itself; the sum fits 32 signed bits where a branch executes. -/
def Obligations.BranchTargetIsOwnIndexPlusOffset : Prop :=
  (∀ (rs rt : RegIdx) (imm : Imm16) (s : State) (i : Instr),
    (i = .beq rs rt imm ∧ s.readReg rs = s.readReg rt) ∨
      (i = .bne rs rt imm ∧ s.readReg rs ≠ s.readReg rt) →
    lenOk s.progLen → imm ≠ 0 → 0 ≤ s.pc.toInt + sint16 imm → s.pc.toInt + sint16 imm ≤ s.len →
    ∃ t, exec i s = .next t ∧ t.pc.toInt = s.pc.toInt + sint16 imm ∧
      s.pc.toInt - 32768 ≤ t.pc.toInt ∧ t.pc.toInt ≤ s.pc.toInt + 32767 ∧ t.pc ≠ s.pc) ∧
  (∀ (imm : Imm16) (s : State), lenOk s.progLen → 0 ≤ s.pc.toInt → s.pc.toInt < s.len →
    -2147483648 ≤ s.pc.toInt + sint16 imm ∧ s.pc.toInt + sint16 imm ≤ 2147483647)

/-- R132 (that exactly one of the two is taken is an inference the spec marks as its own): with one
offset and a legal target, BEQ goes to the target and BNE on when all 32 bits agree, and the other
way round when one differs. -/
def Obligations.ExactlyOneOfBeqAndBneIsTaken : Prop :=
  ∀ (rs rt : RegIdx) (imm : Imm16) (s : State), imm ≠ 0 → 0 ≤ s.pc.toInt + sint16 imm →
    s.pc.toInt + sint16 imm ≤ s.len →
    ∃ t u, exec (.beq rs rt imm) s = .next t ∧ exec (.bne rs rt imm) s = .next u ∧
      ((∀ j < 32, (s.readReg rs).getLsbD j = (s.readReg rt).getLsbD j) →
        t.pc = BitVec.ofInt 32 (s.pc.toInt + sint16 imm) ∧ u.pc = s.pc + 1) ∧
      ((∃ j < 32, (s.readReg rs).getLsbD j ≠ (s.readReg rt).getLsbD j) →
        t.pc = s.pc + 1 ∧ u.pc = BitVec.ofInt 32 (s.pc.toInt + sint16 imm))

/-- R135 (its consequences are inferences the spec marks as its own): a branch with offset 0 goes on
to pc + 1, taken or not, in every state, and no instruction that leaves the block running can leave
pc where it was. -/
def Obligations.NoInstructionLoopsOnItself : Prop :=
  (∀ (rs rt : RegIdx) (s : State),
    ∃ t u, exec (.beq rs rt 0) s = .next t ∧ exec (.bne rs rt 0) s = .next u ∧
      t.pc = s.pc + 1 ∧ u.pc = s.pc + 1 ∧ t.status = s.status ∧ u.status = s.status) ∧
  (∀ (i : Instr) (s t : State), lenOk s.progLen → s.status = .running → exec i s = .next t →
    t.status = .running → t.pc ≠ s.pc)

/-! ### The execution cycle (spec/40_execution_cycle.md) -/

/-- R100 to R103: a step of a running block whose word at pc decodes to `i` is exec of `i`, and
nothing is added around it. -/
def Obligations.StepRunsTheDecodedInstruction : Prop :=
  ∀ (s : State) (w : Word) (i : Instr), s.Executes w → decode w = .instr i → step s = exec i s

/-- R102, whole: the running cycle reads `IMem(pc)`, the fetch cannot fault inside a loaded program,
and no other word is looked at: another program with the same word at pc gives the same result. -/
def Obligations.CycleLooksAtOneWord : Prop :=
  (∀ s : State, s.Loaded → 0 ≤ s.pc.toInt → s.pc.toInt < s.len →
    ∃ w, s.mem.imem s.pc.toInt.toNat = some w ∧ s.fetch = .ok w) ∧
  (∀ (s t : State) (m : Memory), m.imem s.pc.toInt.toNat = s.mem.imem s.pc.toInt.toNat →
    step s = .next t → step { s with mem := m } = .next { t with mem := m })

/-- R105, whole: after every instruction, in every state and on every path (the one into
IllegalBranchTarget too), register 0 is 0. -/
def Obligations.RegisterZeroIsClearedByEveryInstruction : Prop :=
  ∀ (i : Instr) (s : State), ∃ t, exec i s = .next t ∧ t.readReg 0 = 0 ∧
    (∀ k, s.pending i = some k → ∀ r, r ≠ 0 → t.readReg r = s.readReg r)

/-- R106, whole: pc + pending when that is set, not 0 and passes the check; pc + 1 when it is none or
0, so always after an ADDI; unwritten and Halted-Fatal when the check fails; the next fetch is at the
new pc. -/
def Obligations.PcIsWrittenByTheResolver : Prop :=
  ∀ (i : Instr) (s : State), ∃ t, exec i s = .next t ∧
    (s.pending i = none ∨ s.pending i = some 0 → t.pc = s.pc + 1 ∧ t.status = s.status) ∧
    (i.kind = .addi → t.pc = s.pc + 1 ∧ t.status = s.status) ∧
    (∀ k, s.pending i = some k → k ≠ 0 → 0 ≤ s.pc.toInt + k → s.pc.toInt + k ≤ s.len →
      t.pc = BitVec.ofInt 32 (s.pc.toInt + k) ∧ t.status = s.status) ∧
    (∀ k, s.pending i = some k → k ≠ 0 → (s.pc.toInt + k < 0 ∨ s.pc.toInt + k > s.len) →
      t.pc = s.pc ∧ t.status = .haltedFatal) ∧
    (0 ≤ t.pc.toInt → t.pc.toInt < t.len →
      ∀ w, s.mem.imem t.pc.toInt.toNat = some w → t.fetch = .ok w)

/-- R28's table in exact integers, at a boundary of a run (that pc is kept on a fatal outcome is the
spec's decision D10). -/
def Obligations.PcFollowsTheTable : Prop :=
  ∀ (s t : State) (w : Word), s.Inv → s.Executes w → step s = .next t →
    (∀ op, decode w = .unimplemented op → t.pc = s.pc) ∧
    (∀ i, decode w = .instr i →
      (s.pending i = none ∨ s.pending i = some 0 → t.pc.toInt = s.pc.toInt + 1) ∧
      (∀ k, s.pending i = some k → k ≠ 0 →
        (0 ≤ s.pc.toInt + k ∧ s.pc.toInt + k ≤ s.len → t.pc.toInt = s.pc.toInt + k) ∧
        (s.pc.toInt + k < 0 ∨ s.pc.toInt + k > s.len → t.pc = s.pc)))

/-- R101, whole: a running block at pc = LEN halts normally, changing only the status, with no retire
event; with LEN = 0 on the first cycle after reset; and a running block comes to Halted-Normal in no
other way. -/
def Obligations.NormalHaltAtTheEndIndex : Prop :=
  (∀ s : State, s.rst = false → s.status = .running → lenOk s.progLen → s.pc.toInt = s.len →
    step s = .next { s with status := .haltedNormal } ∧ s.retireEvent = none) ∧
  (∀ s : State, s.rst = true → s.progLen = 0 →
    ∃ t u, step s = .next t ∧ step { t with rst := false } = .next u ∧ u.status = .haltedNormal) ∧
  (∀ s t : State, s.status = .running → step s = .next t → t.status = .haltedNormal →
    s.pc.toInt = s.len ∧ t.pc.toInt = t.len)

/-- R108 (frozen by the spec's decision D9): a halted block changes nothing for any number of cycles,
and presents no retire event. -/
def Obligations.HaltedStatesAreFrozen : Prop :=
  ∀ s : State, s.rst = false → s.status ≠ .running →
    s.retireEvent = none ∧ ∀ n, runFrom n s = .next s

/-- R110: the final state of a run is unique, and the run stays in it. -/
def Obligations.FinalStateIsUnique : Prop :=
  ∀ s t u : State, s.rst = false → EndsIn s t → EndsIn s u → t = u ∧ step t = .next t

/-! ### The instruction memory (spec/20_memory.md) -/

/-- R50, R60: no number of cycles changes a word of PROG, LEN or another input. -/
def Obligations.ProgramIsFixedForTheRun : Prop :=
  ∀ (n : Nat) (s t : State), runFrom n s = .next t →
    s.SameInputs t ∧ ∀ i, t.mem.imem i = s.mem.imem i

/-- Entry 6: a word placed for the next step is the one it fetches and runs, at any index the bound
of LEN admits. -/
def Obligations.PlacedWordIsTheOneRun : Prop :=
  ∀ (s : State) (w : Word), s.mem.wf → 0 ≤ s.pc.toInt → s.pc.toInt < 2147450880 →
    (s.withFetchWord 32 w.toNat).Executes w ∧
    (∀ i, decodeTableWord 32 w.toNat = some i →
      step (s.withFetchWord 32 w.toNat) = exec i (s.withFetchWord 32 w.toNat))

/-! ### Fatal conditions and the run-state machine (spec/60_exceptions.md) -/

/-- 60_exceptions.md section 1 (R151): a word whose opcode is none of the three takes
UnimplementedOpcode: the record names the opcode field and the index; x and pc do not change; no
retire event. That pc is kept and that the record exists are the spec's decision D10. -/
def Obligations.OtherOpcodeIsFatal : Prop :=
  ∀ (s : State) (w : Word), s.Executes w → (fields w).opcode ≠ Config.opcAddi →
    (fields w).opcode ≠ Config.opcodes.beq → (fields w).opcode ≠ Config.opcodes.bne →
    ∃ t, step s = .next t ∧ t.status = .haltedFatal ∧ t.faultCause = .unimplementedOpcode ∧
      t.faultOpcode = (fields w).opcode ∧ t.faultPc = s.pc ∧ t.pc = s.pc ∧
      (∀ r, t.readReg r = s.readReg r) ∧ s.SameInputs t ∧ s.retireEvent = none

/-- 30_encoding.md section 4 (R79): a word with opcode 0, the all-zero word among them, is rejected
for any legal opcode numbers, and executing it is fatal, whatever its other bits, before any retire
event (R151). That a record holds the cause and the opcode is the spec's decision D10 (entry 12). -/
def Obligations.OpcodeZeroIsNeverSkipped : Prop :=
  (∀ (m : OpcodeMap) (w : Word), m.wf → (fields w).opcode = 0 → classify m w = .unimplemented 0) ∧
  (∀ m : OpcodeMap, m.wf → classify m 0 = .unimplemented 0) ∧
  (∀ (s : State) (w : Word), s.Executes w → (fields w).opcode = 0 →
    s.retireEvent = none ∧
    ∃ t, step s = .next t ∧ t.status = .haltedFatal ∧ t.faultCause = .unimplementedOpcode ∧
      t.faultOpcode = 0)

/-- R156's transition list (what the two fatal entries leave alone rests on the spec's decision D10):
every step of a block is one of its rows, with its cause. -/
def Obligations.RunStateTransitionsAreClosed : Prop :=
  ∀ s t : State, step s = .next t →
    (s.rst = true → t.status = .running ∧ t.pc = 0) ∧
    (s.rst = false → s.status ≠ .running → t = s) ∧
    (s.rst = false → s.status = .running →
      (t.status = .running ∧ ∃ w i, s.fetch = .ok w ∧ decode w = .instr i ∧ exec i s = .next t) ∨
      (t.status = .haltedNormal ∧ s.pc.toInt = s.len ∧ t.pc = s.pc ∧ s.SameRecord t ∧
        ∀ r, t.readReg r = s.readReg r) ∨
      (t.status = .haltedFatal ∧ t.faultCause ≠ .none ∧ t.pc = s.pc ∧ s.SameInputs t ∧
        ∀ r, r ≠ 0 → t.readReg r = s.readReg r))

/-- 93_implementation_defined.md U8, D4: a running block with LEN above the bound is refused by name. -/
def Obligations.LenAboveTheBoundIsRefused : Prop :=
  ∀ s : State, s.rst = false → s.status = .running → s.progLen.toNat > 2147450880 →
    step s = .refused .progLenAboveBound

/-- Entry 6: the two stops by name, where the spec gives no behaviour: a fetch outside the program,
and a fetch of a word below LEN that nobody loaded. A step faults in these two cases and in no
other. -/
def Obligations.FetchStopsOnlyOutsideALoadedProgram : Prop :=
  (∀ s : State, s.rst = false → s.status = .running → lenOk s.progLen →
    ((s.pc.toInt < 0 ∨ s.pc.toInt > s.len) → step s = .fault .pcOutsideProgram) ∧
    (0 ≤ s.pc.toInt → s.pc.toInt < s.len → s.mem.imem s.pc.toInt.toNat = none →
      step s = .fault .programWordMissing)) ∧
  (∀ (s : State) (f : Fault), step s = .fault f →
    s.rst = false ∧ s.status = .running ∧ lenOk s.progLen ∧
    ((f = .pcOutsideProgram ∧ (s.pc.toInt < 0 ∨ s.pc.toInt > s.len)) ∨
      (f = .programWordMissing ∧ 0 ≤ s.pc.toInt ∧ s.pc.toInt < s.len ∧
        s.mem.imem s.pc.toInt.toNat = none)))

/-! ### Reset (spec/70_reset_and_hazards.md) -/

/-- R181, R183, whole: after reset register 0 is 0 and the status is Running, whatever LEN is; with
LEN = 0 the first cycle then moves to Halted-Normal. -/
def Obligations.ResetLeavesZeroAndRunning : Prop :=
  State.reset.readReg 0 = 0 ∧ State.reset.status = .running ∧
  (∀ s : State, s.rst = true →
    ∃ t, step s = .next t ∧ t.readReg 0 = 0 ∧ t.status = .running ∧
      (t.progLen = 0 → ∃ u, step { t with rst := false } = .next u ∧ u.status = .haltedNormal))

/-- R180, R182, R184: reset from any state, halted or not, gives pc = 0, every register 0 (the spec's
decision D3, entry 3), Running, no fault cause (D10); PROG, LEN and the other inputs stay. -/
def Obligations.ResetStartsANewRunFromAnyState : Prop :=
  (∀ r, State.reset.readReg r = 0) ∧ State.reset.pc = 0 ∧ State.reset.faultCause = .none ∧
  (∀ s : State, s.rst = true →
    ∃ t, step s = .next t ∧ (∀ r, t.readReg r = 0) ∧ t.pc = 0 ∧ t.status = .running ∧
      t.faultCause = .none ∧ s.SameInputs t)

/-! ### Outputs (spec/10_state.md R32, R37 to R41) -/

/-- R40 (the polarity is the spec's decision D6): the block evolves the same for `trace_en` 0 and 1. -/
def Obligations.TraceEnableHasNoEffect : Prop :=
  ∀ (s : State) (b : Bool),
    (∀ t, step s = .next t → step { s with traceEn := b } = .next { t with traceEn := b }) ∧
    (∀ f, step s = .fault f → step { s with traceEn := b } = .fault f) ∧
    (∀ r, step s = .refused r → step { s with traceEn := b } = .refused r)

/-- R41 (the retire event is the spec's decision D6): while `trace_en` is 1 a dispatched instruction
presents its index, word, operands and effect; the value is the one rt then holds (rt = 0 is left
open, U4); a taken branch presents pc + offset, also into IllegalBranchTarget. -/
def Obligations.RetireEventOfADispatchedInstruction : Prop :=
  ∀ (s : State) (w : Word) (i : Instr), s.Executes w → decode w = .instr i → s.traceEn = true →
    ∃ e t, s.retireEvent = some e ∧ step s = .next t ∧ e.pc = s.pc ∧ e.word = w ∧ e.kind = i.kind ∧
      e.rs = i.rs ∧ e.rt = i.rt ∧ e.imm = sint16 i.imm ∧
      (i.kind = .addi → (i.rt ≠ 0 → e.value = some (t.readReg i.rt)) ∧ e.value ≠ none ∧
        e.taken = none ∧ e.target = none) ∧
      (i.kind = .beq → e.value = none ∧ e.taken = some (decide (s.readReg i.rs = s.readReg i.rt)) ∧
        e.target = if s.readReg i.rs = s.readReg i.rt then some (s.pc.toInt + sint16 i.imm)
          else none) ∧
      (i.kind = .bne → e.value = none ∧ e.taken = some (decide (s.readReg i.rs ≠ s.readReg i.rt)) ∧
        e.target = if s.readReg i.rs ≠ s.readReg i.rt then some (s.pc.toInt + sint16 i.imm)
          else none)

/-- R41 (the spec's decision D6): there is no other record: a record means `trace_en` = 1 and an
instruction dispatched on this cycle. -/
def Obligations.NoOtherRetireEvent : Prop :=
  ∀ (s : State) (e : RetireEvent), s.retireEvent = some e →
    s.traceEn = true ∧ ∃ w i, s.Executes w ∧ decode w = .instr i ∧ e.word = w ∧ e.kind = i.kind

/-- R32 and R150 (the codes are the spec's suggestions D7 and D10), R37: the output codes, status 11
never produced, and the fetch address is pc. -/
def Obligations.OutputCodes : Prop :=
  RunStatus.running.code = 0b00 ∧ RunStatus.haltedNormal.code = 0b01 ∧
    RunStatus.haltedFatal.code = 0b10 ∧ (∀ r : RunStatus, r.code ≠ 0b11) ∧
    FaultCause.none.code = 0 ∧ FaultCause.unimplementedOpcode.code = 1 ∧
    FaultCause.illegalBranchTarget.code = 2 ∧ ∀ s : State, s.outputs.imemAddr = s.pc

/-! ### Whole-machine invariants (spec/40_execution_cycle.md R110) -/

/-- R110: the invariant holds at State.reset. -/
def Obligations.ResetStateMeetsTheInvariant : Prop := State.reset.Inv

/-- R110, R185: a reset of a block whose LEN is within the bound starts a run in the invariant,
whatever state it was in and whatever program is loaded. -/
def Obligations.EveryRunStartsInTheInvariant : Prop :=
  ∀ s : State, s.rst = true → lenOk s.progLen → s.mem.wf → ∃ t, step s = .next t ∧ t.Inv

/-- R22, R29, R110: from every state that meets the invariant (register 0 is 0, LEN within its bound,
pc in 0 .. LEN, the image canonical, status and fault record in agreement), a step gives one that
does. -/
def Obligations.StepKeepsTheInvariant : Prop :=
  ∀ s t : State, s.Inv → step s = .next t → t.Inv

/-- R52, R80, R109: from every state of a run of a loaded program, any number of cycles completes:
no fault, no refusal, no fetch outside the program, and the invariant holds throughout. -/
def Obligations.LoadedRunNeverStops : Prop :=
  ∀ (n : Nat) (s : State), s.Inv → s.Loaded → ∃ t, runFrom n s = .next t ∧ t.Inv ∧ t.Loaded
end

