-- ==== Sys2Proof/Laws/Decode.lean ====
section
/-! SUPPORT. One law per function of the decoder and the encoder: which field of a word is which
operand, and how a byte image holds a word. All of them go through numbers. -/

namespace Sys2Proof

/-! ### Words as numbers -/

theorem toNat_append_eq {m n : Nat} (a : BitVec m) (b : BitVec n) :
    (a ++ b).toNat = a.toNat * 2 ^ n + b.toNat := by
  rw [BitVec.toNat_append, ← Nat.shiftLeft_add_eq_or_of_lt b.isLt, Nat.shiftLeft_eq]

theorem toNat_slice (w : Word) (k n : Nat) : (w.extractLsb' k n).toNat = w.toNat / 2 ^ k % 2 ^ n := by
  rw [BitVec.extractLsb'_toNat, Nat.shiftRight_eq_div_pow]

theorem formatI_toNat (op : Opcode) (rs rt : RegIdx) (imm : Imm16) :
    (formatI op rs rt imm).toNat
      = op.toNat * 2 ^ 26 + rs.toNat * 2 ^ 21 + rt.toNat * 2 ^ 16 + imm.toNat := by
  have h : (formatI op rs rt imm).toNat = (op ++ rs ++ rt ++ imm).toNat := rfl
  rw [h]
  simp only [toNat_append_eq]
  omega

theorem wordOfBytes_toNat (b0 b1 b2 b3 : Byte) :
    (wordOfBytes .mostSignificantFirst b0 b1 b2 b3).toNat
      = b0.toNat * 2 ^ 24 + b1.toNat * 2 ^ 16 + b2.toNat * 2 ^ 8 + b3.toNat := by
  have h : (wordOfBytes .mostSignificantFirst b0 b1 b2 b3).toNat = (b0 ++ b1 ++ b2 ++ b3).toNat := rfl
  rw [h]
  simp only [toNat_append_eq]
  omega

theorem wordOfBytes_reverse (b0 b1 b2 b3 : Byte) :
    wordOfBytes .leastSignificantFirst b0 b1 b2 b3 = wordOfBytes .mostSignificantFirst b3 b2 b1 b0 := rfl

/-! ### The decoder undoes the layout, and the layout the decoder -/

/-- Each field of a format I word is the operand laid there; rd and funct read the immediate again
(R70, R71). -/
theorem fields_formatI (op : Opcode) (rs rt : RegIdx) (imm : Imm16) :
    fields (formatI op rs rt imm)
      = { opcode := op, rs := rs, rt := rt, rd := imm.extractLsb' 11 5, imm := imm,
          funct := imm.extractLsb' 0 11 } := by
  have := op.isLt
  have := rs.isLt
  have := rt.isLt
  have := imm.isLt
  simp only [fields, Fields.mk.injEq]
  refine ⟨?_, ?_, ?_, ?_, ?_, ?_⟩ <;> apply BitVec.eq_of_toNat_eq <;>
    simp only [BitVec.extractLsb'_toNat, Nat.shiftRight_eq_div_pow, formatI_toNat] <;> omega

/-- A word is its own opcode, rs, rt and immediate. -/
theorem formatI_fields (w : Word) :
    formatI (fields w).opcode (fields w).rs (fields w).rt (fields w).imm = w := by
  apply BitVec.eq_of_toNat_eq
  have := w.isLt
  simp only [formatI_toNat, fields, toNat_slice]
  omega

/-- The four bytes of a word in an image give the word back, in either order (R54). -/
theorem wordOfBytes_byteOfWord (o : ByteOrder) (w : Word) :
    wordOfBytes o (byteOfWord o w 0) (byteOfWord o w 1) (byteOfWord o w 2) (byteOfWord o w 3) = w := by
  apply BitVec.eq_of_toNat_eq
  have := w.isLt
  cases o <;>
    simp only [wordOfBytes_reverse, wordOfBytes_toNat, byteOfWord, toNat_slice] <;> omega

/-! ### The dispatcher's choice -/

/-- Everything `classify` can answer (R77). -/
theorem classify_cases (m : OpcodeMap) (w : Word) :
    ((fields w).opcode = Config.opcAddi ∧
      classify m w = .instr (.addi (fields w).rs (fields w).rt (fields w).imm)) ∨
    ((fields w).opcode ≠ Config.opcAddi ∧ (fields w).opcode = m.beq ∧
      classify m w = .instr (.beq (fields w).rs (fields w).rt (fields w).imm)) ∨
    ((fields w).opcode ≠ Config.opcAddi ∧ (fields w).opcode ≠ m.beq ∧ (fields w).opcode = m.bne ∧
      classify m w = .instr (.bne (fields w).rs (fields w).rt (fields w).imm)) ∨
    ((fields w).opcode ≠ Config.opcAddi ∧ (fields w).opcode ≠ m.beq ∧ (fields w).opcode ≠ m.bne ∧
      classify m w = .unimplemented (fields w).opcode) := by
  by_cases ha : (fields w).opcode = Config.opcAddi
  · simp [classify, ha]
  · by_cases hb : (fields w).opcode = m.beq
    · simp_all [classify]
    · by_cases hc : (fields w).opcode = m.bne <;> simp_all [classify]

end Sys2Proof
end

