-- ==== Sys2Proof/Laws/Memory.lean ====
section
/-! SUPPORT. The laws of the instruction memory's image: a load keeps the canonical form, reads back,
and leaves every other place alone. -/

namespace Sys2Proof.Machine

/-- Every entry of a loaded image was there before or is the loaded byte. -/
theorem Memory.mem_writeByte {m : Memory} {a : Nat} {b : Byte} {c : Host.Cell}
    (h : c ∈ m.writeByte a b) : c = (a, b) ∨ c ∈ m := by
  induction m with
  | nil => simpa [Memory.writeByte] using h
  | cons d m ih =>
    simp only [Memory.writeByte] at h
    split at h
    · simpa using h
    · split at h
      · rcases List.mem_cons.1 h with h | h
        · exact .inl h
        · exact .inr (List.mem_cons_of_mem _ h)
      · rcases List.mem_cons.1 h with h | h
        · exact .inr (h ▸ List.mem_cons_self)
        · exact (ih h).imp_right (List.mem_cons_of_mem _)

/-- A load keeps the canonical form. -/
theorem Memory.wf_writeByte {m : Memory} (a : Nat) (b : Byte) (h : m.wf) : (m.writeByte a b).wf := by
  induction m with
  | nil => simp [Memory.writeByte, Memory.wf]
  | cons d m ih =>
    obtain ⟨hd, hm⟩ := List.pairwise_cons.1 h
    simp only [Memory.writeByte]
    split
    · next hlt =>
      refine List.pairwise_cons.2 ⟨fun c hc => ?_, h⟩
      rcases List.mem_cons.1 hc with rfl | hc
      · exact hlt
      · exact hlt.trans (hd c hc)
    · split
      · next heq => exact List.pairwise_cons.2 ⟨fun c hc => heq ▸ hd c hc, hm⟩
      · next hlt hne =>
        refine List.pairwise_cons.2 ⟨fun c hc => ?_, ih hm⟩
        rcases Memory.mem_writeByte hc with rfl | hc
        · show d.1 < a
          omega
        · exact hd c hc

/-- Reading a byte after loading one, in an image of canonical form. -/
theorem Memory.readByte_writeByte {m : Memory} (a : Nat) (b : Byte) (c : Nat) (h : m.wf) :
    (m.writeByte a b).readByte c = if a = c then some b else m.readByte c := by
  induction m with
  | nil => rfl
  | cons d m ih =>
    obtain ⟨_, hm⟩ := List.pairwise_cons.1 h
    simp only [Memory.writeByte]
    split
    · simp only [Memory.readByte]
    · split
      · next heq =>
        simp only [Memory.readByte, ← heq]
        split <;> rfl
      · next hne =>
        simp only [Memory.readByte, ih hm]
        split
        · next hd => rw [if_neg (fun hc => hne (hc.trans hd.symm))]
        · rfl

/-- Loading a word keeps the canonical form. -/
theorem Memory.wf_writeWord {m : Memory} (i : Nat) (w : Word) (h : m.wf) : (m.writeWord i w).wf :=
  wf_writeByte _ _ (wf_writeByte _ _ (wf_writeByte _ _ (wf_writeByte _ _ h)))

/-- One byte of the image after a word was loaded. -/
theorem Memory.readByte_writeWord {m : Memory} (i : Nat) (w : Word) (c : Nat) (h : m.wf) :
    (m.writeWord i w).readByte c =
      if 4 * i + 3 = c then some (byteOfWord Config.imageByteOrder w 3)
      else if 4 * i + 2 = c then some (byteOfWord Config.imageByteOrder w 2)
      else if 4 * i + 1 = c then some (byteOfWord Config.imageByteOrder w 1)
      else if 4 * i = c then some (byteOfWord Config.imageByteOrder w 0)
      else m.readByte c := by
  have h0 := wf_writeByte (4 * i) (byteOfWord Config.imageByteOrder w 0) h
  have h1 := wf_writeByte (4 * i + 1) (byteOfWord Config.imageByteOrder w 1) h0
  have h2 := wf_writeByte (4 * i + 2) (byteOfWord Config.imageByteOrder w 2) h1
  rw [Memory.writeWord, readByte_writeByte _ _ _ h2, readByte_writeByte _ _ _ h1,
    readByte_writeByte _ _ _ h0, readByte_writeByte _ _ _ h]

/-- `IMem` after a word was loaded: that word at its own index, every other index as before. -/
theorem Memory.imem_writeWord {m : Memory} (i : Nat) (w : Word) (j : Nat) (h : m.wf) :
    (m.writeWord i w).imem j = if i = j then some w else m.imem j := by
  unfold Memory.imem
  simp only [readByte_writeWord _ _ _ h]
  by_cases hij : i = j
  · subst hij
    simp [wordOfBytes_byteOfWord]
  · have e (p q : Nat) (hp : p < 4) (hq : q < 4) : 4 * i + p ≠ 4 * j + q := by omega
    have e0 (q : Nat) (hq : q < 4) : 4 * i ≠ 4 * j + q := by omega
    have e1 (p : Nat) (hp : p < 4) : 4 * i + p ≠ 4 * j := by omega
    simp [hij, e, e0, e1]

end Sys2Proof.Machine
end

