-- ==== Sys2Proof/Laws/State.lean ====
section
/-! SUPPORT. What each update of State leaves in each field: one lemma per field per update, so that
no proof unfolds a record update. -/

namespace Sys2Proof.Machine

variable (s : State)

/-! ### writeReg -/

@[simp] theorem State.writeReg_x (i : RegIdx) (v : Word) : (s.writeReg i v).x = s.x.set i.toNat v i.isLt := rfl
@[simp] theorem State.writeReg_pc (i : RegIdx) (v : Word) : (s.writeReg i v).pc = s.pc := rfl
@[simp] theorem State.writeReg_status (i : RegIdx) (v : Word) : (s.writeReg i v).status = s.status := rfl
@[simp] theorem State.writeReg_faultCause (i : RegIdx) (v : Word) : (s.writeReg i v).faultCause = s.faultCause := rfl
@[simp] theorem State.writeReg_faultOpcode (i : RegIdx) (v : Word) : (s.writeReg i v).faultOpcode = s.faultOpcode := rfl
@[simp] theorem State.writeReg_faultPc (i : RegIdx) (v : Word) : (s.writeReg i v).faultPc = s.faultPc := rfl
@[simp] theorem State.writeReg_faultTarget (i : RegIdx) (v : Word) : (s.writeReg i v).faultTarget = s.faultTarget := rfl
@[simp] theorem State.writeReg_mem (i : RegIdx) (v : Word) : (s.writeReg i v).mem = s.mem := rfl
@[simp] theorem State.writeReg_progLen (i : RegIdx) (v : Word) : (s.writeReg i v).progLen = s.progLen := rfl
@[simp] theorem State.writeReg_traceEn (i : RegIdx) (v : Word) : (s.writeReg i v).traceEn = s.traceEn := rfl
@[simp] theorem State.writeReg_rst (i : RegIdx) (v : Word) : (s.writeReg i v).rst = s.rst := rfl
@[simp] theorem State.writeReg_freeIndex (i : RegIdx) (v : Word) : (s.writeReg i v).freeIndex = s.freeIndex := rfl

/-! ### advance -/

@[simp] theorem State.advance_x : (s.advance).x = s.x := rfl
@[simp] theorem State.advance_pc : (s.advance).pc = s.pc + 1 := rfl
@[simp] theorem State.advance_status : (s.advance).status = s.status := rfl
@[simp] theorem State.advance_faultCause : (s.advance).faultCause = s.faultCause := rfl
@[simp] theorem State.advance_faultOpcode : (s.advance).faultOpcode = s.faultOpcode := rfl
@[simp] theorem State.advance_faultPc : (s.advance).faultPc = s.faultPc := rfl
@[simp] theorem State.advance_faultTarget : (s.advance).faultTarget = s.faultTarget := rfl
@[simp] theorem State.advance_mem : (s.advance).mem = s.mem := rfl
@[simp] theorem State.advance_progLen : (s.advance).progLen = s.progLen := rfl
@[simp] theorem State.advance_traceEn : (s.advance).traceEn = s.traceEn := rfl
@[simp] theorem State.advance_rst : (s.advance).rst = s.rst := rfl
@[simp] theorem State.advance_freeIndex : (s.advance).freeIndex = s.freeIndex := rfl

/-! ### redirect -/

@[simp] theorem State.redirect_x (t : Int) : (s.redirect t).x = s.x := rfl
@[simp] theorem State.redirect_pc (t : Int) : (s.redirect t).pc = BitVec.ofInt 32 t := rfl
@[simp] theorem State.redirect_status (t : Int) : (s.redirect t).status = s.status := rfl
@[simp] theorem State.redirect_faultCause (t : Int) : (s.redirect t).faultCause = s.faultCause := rfl
@[simp] theorem State.redirect_faultOpcode (t : Int) : (s.redirect t).faultOpcode = s.faultOpcode := rfl
@[simp] theorem State.redirect_faultPc (t : Int) : (s.redirect t).faultPc = s.faultPc := rfl
@[simp] theorem State.redirect_faultTarget (t : Int) : (s.redirect t).faultTarget = s.faultTarget := rfl
@[simp] theorem State.redirect_mem (t : Int) : (s.redirect t).mem = s.mem := rfl
@[simp] theorem State.redirect_progLen (t : Int) : (s.redirect t).progLen = s.progLen := rfl
@[simp] theorem State.redirect_traceEn (t : Int) : (s.redirect t).traceEn = s.traceEn := rfl
@[simp] theorem State.redirect_rst (t : Int) : (s.redirect t).rst = s.rst := rfl
@[simp] theorem State.redirect_freeIndex (t : Int) : (s.redirect t).freeIndex = s.freeIndex := rfl

/-! ### haltNormal -/

@[simp] theorem State.haltNormal_x : (s.haltNormal).x = s.x := rfl
@[simp] theorem State.haltNormal_pc : (s.haltNormal).pc = s.pc := rfl
@[simp] theorem State.haltNormal_status : (s.haltNormal).status = .haltedNormal := rfl
@[simp] theorem State.haltNormal_faultCause : (s.haltNormal).faultCause = s.faultCause := rfl
@[simp] theorem State.haltNormal_faultOpcode : (s.haltNormal).faultOpcode = s.faultOpcode := rfl
@[simp] theorem State.haltNormal_faultPc : (s.haltNormal).faultPc = s.faultPc := rfl
@[simp] theorem State.haltNormal_faultTarget : (s.haltNormal).faultTarget = s.faultTarget := rfl
@[simp] theorem State.haltNormal_mem : (s.haltNormal).mem = s.mem := rfl
@[simp] theorem State.haltNormal_progLen : (s.haltNormal).progLen = s.progLen := rfl
@[simp] theorem State.haltNormal_traceEn : (s.haltNormal).traceEn = s.traceEn := rfl
@[simp] theorem State.haltNormal_rst : (s.haltNormal).rst = s.rst := rfl
@[simp] theorem State.haltNormal_freeIndex : (s.haltNormal).freeIndex = s.freeIndex := rfl

/-! ### nextFree -/

@[simp] theorem State.nextFree_x : (s.nextFree).x = s.x := rfl
@[simp] theorem State.nextFree_pc : (s.nextFree).pc = s.pc := rfl
@[simp] theorem State.nextFree_status : (s.nextFree).status = s.status := rfl
@[simp] theorem State.nextFree_faultCause : (s.nextFree).faultCause = s.faultCause := rfl
@[simp] theorem State.nextFree_faultOpcode : (s.nextFree).faultOpcode = s.faultOpcode := rfl
@[simp] theorem State.nextFree_faultPc : (s.nextFree).faultPc = s.faultPc := rfl
@[simp] theorem State.nextFree_faultTarget : (s.nextFree).faultTarget = s.faultTarget := rfl
@[simp] theorem State.nextFree_mem : (s.nextFree).mem = s.mem := rfl
@[simp] theorem State.nextFree_progLen : (s.nextFree).progLen = s.progLen := rfl
@[simp] theorem State.nextFree_traceEn : (s.nextFree).traceEn = s.traceEn := rfl
@[simp] theorem State.nextFree_rst : (s.nextFree).rst = s.rst := rfl
@[simp] theorem State.nextFree_freeIndex : (s.nextFree).freeIndex = s.freeIndex + 1 := rfl

/-! ### raiseUnimplemented -/

@[simp] theorem State.raiseUnimplemented_x (op : Opcode) (p : Word) : (s.raise (.unimplementedOpcode op p)).x = s.x := rfl
@[simp] theorem State.raiseUnimplemented_pc (op : Opcode) (p : Word) : (s.raise (.unimplementedOpcode op p)).pc = s.pc := rfl
@[simp] theorem State.raiseUnimplemented_status (op : Opcode) (p : Word) : (s.raise (.unimplementedOpcode op p)).status = .haltedFatal := rfl
@[simp] theorem State.raiseUnimplemented_faultCause (op : Opcode) (p : Word) : (s.raise (.unimplementedOpcode op p)).faultCause = .unimplementedOpcode := rfl
@[simp] theorem State.raiseUnimplemented_faultOpcode (op : Opcode) (p : Word) : (s.raise (.unimplementedOpcode op p)).faultOpcode = op := rfl
@[simp] theorem State.raiseUnimplemented_faultPc (op : Opcode) (p : Word) : (s.raise (.unimplementedOpcode op p)).faultPc = p := rfl
@[simp] theorem State.raiseUnimplemented_faultTarget (op : Opcode) (p : Word) : (s.raise (.unimplementedOpcode op p)).faultTarget = Config.freeFaultTarget s.freeIndex := rfl
@[simp] theorem State.raiseUnimplemented_mem (op : Opcode) (p : Word) : (s.raise (.unimplementedOpcode op p)).mem = s.mem := rfl
@[simp] theorem State.raiseUnimplemented_progLen (op : Opcode) (p : Word) : (s.raise (.unimplementedOpcode op p)).progLen = s.progLen := rfl
@[simp] theorem State.raiseUnimplemented_traceEn (op : Opcode) (p : Word) : (s.raise (.unimplementedOpcode op p)).traceEn = s.traceEn := rfl
@[simp] theorem State.raiseUnimplemented_rst (op : Opcode) (p : Word) : (s.raise (.unimplementedOpcode op p)).rst = s.rst := rfl
@[simp] theorem State.raiseUnimplemented_freeIndex (op : Opcode) (p : Word) : (s.raise (.unimplementedOpcode op p)).freeIndex = s.freeIndex := rfl

/-! ### raiseIllegal -/

@[simp] theorem State.raiseIllegal_x (t : Int) : (s.raise (.illegalBranchTarget t)).x = s.x := rfl
@[simp] theorem State.raiseIllegal_pc (t : Int) : (s.raise (.illegalBranchTarget t)).pc = s.pc := rfl
@[simp] theorem State.raiseIllegal_status (t : Int) : (s.raise (.illegalBranchTarget t)).status = .haltedFatal := rfl
@[simp] theorem State.raiseIllegal_faultCause (t : Int) : (s.raise (.illegalBranchTarget t)).faultCause = .illegalBranchTarget := rfl
@[simp] theorem State.raiseIllegal_faultOpcode (t : Int) : (s.raise (.illegalBranchTarget t)).faultOpcode = Config.freeFaultOpcode s.freeIndex := rfl
@[simp] theorem State.raiseIllegal_faultPc (t : Int) : (s.raise (.illegalBranchTarget t)).faultPc = Config.freeFaultPc s.freeIndex := rfl
@[simp] theorem State.raiseIllegal_faultTarget (t : Int) : (s.raise (.illegalBranchTarget t)).faultTarget = BitVec.ofInt 32 t := rfl
@[simp] theorem State.raiseIllegal_mem (t : Int) : (s.raise (.illegalBranchTarget t)).mem = s.mem := rfl
@[simp] theorem State.raiseIllegal_progLen (t : Int) : (s.raise (.illegalBranchTarget t)).progLen = s.progLen := rfl
@[simp] theorem State.raiseIllegal_traceEn (t : Int) : (s.raise (.illegalBranchTarget t)).traceEn = s.traceEn := rfl
@[simp] theorem State.raiseIllegal_rst (t : Int) : (s.raise (.illegalBranchTarget t)).rst = s.rst := rfl
@[simp] theorem State.raiseIllegal_freeIndex (t : Int) : (s.raise (.illegalBranchTarget t)).freeIndex = s.freeIndex := rfl

/-! ### resetRun -/

@[simp] theorem State.resetRun_x : (s.resetRun).x = State.reset.x := rfl
@[simp] theorem State.resetRun_pc : (s.resetRun).pc = 0 := rfl
@[simp] theorem State.resetRun_status : (s.resetRun).status = .running := rfl
@[simp] theorem State.resetRun_faultCause : (s.resetRun).faultCause = .none := rfl
@[simp] theorem State.resetRun_faultOpcode : (s.resetRun).faultOpcode = 0 := rfl
@[simp] theorem State.resetRun_faultPc : (s.resetRun).faultPc = 0 := rfl
@[simp] theorem State.resetRun_faultTarget : (s.resetRun).faultTarget = 0 := rfl
@[simp] theorem State.resetRun_mem : (s.resetRun).mem = s.mem := rfl
@[simp] theorem State.resetRun_progLen : (s.resetRun).progLen = s.progLen := rfl
@[simp] theorem State.resetRun_traceEn : (s.resetRun).traceEn = s.traceEn := rfl
@[simp] theorem State.resetRun_rst : (s.resetRun).rst = s.rst := rfl
@[simp] theorem State.resetRun_freeIndex : (s.resetRun).freeIndex = 0 := rfl

/-! ### placeWord -/

@[simp] theorem State.placeWord_x (w : Word) : (s.placeWord w).x = s.x := rfl
@[simp] theorem State.placeWord_pc (w : Word) : (s.placeWord w).pc = s.pc := rfl
@[simp] theorem State.placeWord_status (w : Word) : (s.placeWord w).status = .running := rfl
@[simp] theorem State.placeWord_faultCause (w : Word) : (s.placeWord w).faultCause = s.faultCause := rfl
@[simp] theorem State.placeWord_faultOpcode (w : Word) : (s.placeWord w).faultOpcode = s.faultOpcode := rfl
@[simp] theorem State.placeWord_faultPc (w : Word) : (s.placeWord w).faultPc = s.faultPc := rfl
@[simp] theorem State.placeWord_faultTarget (w : Word) : (s.placeWord w).faultTarget = s.faultTarget := rfl
@[simp] theorem State.placeWord_mem (w : Word) : (s.placeWord w).mem = s.mem.writeWord s.pc.toNat w := rfl
@[simp] theorem State.placeWord_progLen (w : Word) : (s.placeWord w).progLen = s.lenCoveringPc := rfl
@[simp] theorem State.placeWord_traceEn (w : Word) : (s.placeWord w).traceEn = s.traceEn := rfl
@[simp] theorem State.placeWord_rst (w : Word) : (s.placeWord w).rst = false := rfl
@[simp] theorem State.placeWord_freeIndex (w : Word) : (s.placeWord w).freeIndex = s.freeIndex := rfl

/-! ### clearX0 is a write of 0 to register 0 -/

@[simp] theorem State.clearX0_x : s.clearX0.x = s.x.set 0 0 := rfl
@[simp] theorem State.clearX0_pc : s.clearX0.pc = s.pc := rfl
@[simp] theorem State.clearX0_status : s.clearX0.status = s.status := rfl
@[simp] theorem State.clearX0_faultCause : s.clearX0.faultCause = s.faultCause := rfl
@[simp] theorem State.clearX0_faultOpcode : s.clearX0.faultOpcode = s.faultOpcode := rfl
@[simp] theorem State.clearX0_faultPc : s.clearX0.faultPc = s.faultPc := rfl
@[simp] theorem State.clearX0_faultTarget : s.clearX0.faultTarget = s.faultTarget := rfl
@[simp] theorem State.clearX0_mem : s.clearX0.mem = s.mem := rfl
@[simp] theorem State.clearX0_progLen : s.clearX0.progLen = s.progLen := rfl
@[simp] theorem State.clearX0_traceEn : s.clearX0.traceEn = s.traceEn := rfl
@[simp] theorem State.clearX0_rst : s.clearX0.rst = s.rst := rfl
@[simp] theorem State.clearX0_freeIndex : s.clearX0.freeIndex = s.freeIndex := rfl

end Sys2Proof.Machine
end

