-- ==== Sys2Proof/Laws/Ops.lean ====
section
/-! SUPPORT. One law per shared operation: operands, register reads after each update, the Branch
Resolver and the end of a cycle. -/

namespace Sys2Proof.Machine

/-! ### Operands -/

/-- `signed(sext_32(v)) = sint_16(v)` (spec/00_scope.md R8). -/
@[simp] theorem toInt_sext32 (v : Imm16) : (sext32 v).toInt = sint16 v :=
  BitVec.toInt_signExtend_of_le (by decide)

/-- The range of a signed immediate (R73). -/
theorem sint16_range (v : Imm16) : -32768 ≤ sint16 v ∧ sint16 v ≤ 32767 := by
  have h1 := BitVec.le_toInt v
  have h2 := BitVec.toInt_lt (x := v)
  unfold sint16
  omega

/-! ### Words as signed integers -/

/-- A sum that fits 32 signed bits is written exactly. -/
theorem toInt_ofInt_of_fits {t : Int} (h1 : -2147483648 ≤ t) (h2 : t < 2147483648) :
    (BitVec.ofInt 32 t).toInt = t := by
  rw [BitVec.toInt_ofInt]
  exact Int.bmod_eq_of_le (by omega) (by omega)

/-- `pc + 1` is exact below the greatest signed value. -/
theorem toInt_add_one {p : Word} (h : p.toInt < 2147483647) : (p + 1).toInt = p.toInt + 1 := by
  have h1 := BitVec.le_toInt p
  have h2 : (1 : Word).toInt = 1 := by decide
  rw [BitVec.toInt_add, h2]
  exact Int.bmod_eq_of_le (by omega) (by omega)

/-! ### Registers -/

section Registers

variable (s : State)

theorem State.readReg_writeReg (i j : RegIdx) (v : Word) :
    (s.writeReg i v).readReg j = if i = j then v else s.readReg j := by
  simp only [State.readReg, State.writeReg, Vector.getElem_set, BitVec.toNat_eq]

@[simp] theorem State.readReg_clearX0 (j : RegIdx) :
    s.clearX0.readReg j = if j = 0 then 0 else s.readReg j := by
  simp only [State.clearX0, State.readReg_writeReg, eq_comm]

@[simp] theorem State.readReg_advance (j : RegIdx) : s.advance.readReg j = s.readReg j := rfl
@[simp] theorem State.readReg_redirect (t : Int) (j : RegIdx) :
    (s.redirect t).readReg j = s.readReg j := rfl
@[simp] theorem State.readReg_haltNormal (j : RegIdx) : s.haltNormal.readReg j = s.readReg j := rfl
@[simp] theorem State.readReg_nextFree (j : RegIdx) : s.nextFree.readReg j = s.readReg j := rfl
@[simp] theorem State.readReg_raise (f : FatalInfo) (j : RegIdx) :
    (s.raise f).readReg j = s.readReg j := by
  cases f <;> rfl

/-- A reset leaves every register 0 (R181, R182 with REG_RESET = 0). -/
@[simp] theorem State.readReg_resetRun (j : RegIdx) : s.resetRun.readReg j = 0 := by
  have h : ∀ j : RegIdx, State.reset.readReg j = 0 := by decide
  exact h j

@[simp] theorem State.readReg_placeWord (w : Word) (j : RegIdx) :
    (s.placeWord w).readReg j = s.readReg j := rfl

/-- Two register files that read the same are the same. -/
theorem State.x_ext {s t : State} (h : ∀ r, s.readReg r = t.readReg r) : s.x = t.x := by
  apply Vector.ext
  intro i hi
  have := h (BitVec.ofNat 5 i)
  simpa [State.readReg, Nat.mod_eq_of_lt hi] using this

end Registers

/-! ### Entering Halted-Fatal -/

section Raise

variable (s : State) (f : FatalInfo)

@[simp] theorem State.raise_x : (s.raise f).x = s.x := by cases f <;> rfl
@[simp] theorem State.raise_pc : (s.raise f).pc = s.pc := by cases f <;> rfl
@[simp] theorem State.raise_status : (s.raise f).status = .haltedFatal := by cases f <;> rfl
@[simp] theorem State.raise_mem : (s.raise f).mem = s.mem := by cases f <;> rfl
@[simp] theorem State.raise_progLen : (s.raise f).progLen = s.progLen := by cases f <;> rfl
@[simp] theorem State.raise_traceEn : (s.raise f).traceEn = s.traceEn := by cases f <;> rfl
@[simp] theorem State.raise_rst : (s.raise f).rst = s.rst := by cases f <;> rfl
@[simp] theorem State.raise_freeIndex : (s.raise f).freeIndex = s.freeIndex := by cases f <;> rfl

end Raise

/-! ### LEN is one of the inputs -/

section Len

variable (s : State)

@[simp] theorem State.len_writeReg (i : RegIdx) (v : Word) : (s.writeReg i v).len = s.len := rfl
@[simp] theorem State.len_clearX0 : s.clearX0.len = s.len := rfl
@[simp] theorem State.len_advance : s.advance.len = s.len := rfl
@[simp] theorem State.len_redirect (t : Int) : (s.redirect t).len = s.len := rfl
@[simp] theorem State.len_haltNormal : s.haltNormal.len = s.len := rfl
@[simp] theorem State.len_nextFree : s.nextFree.len = s.len := rfl
@[simp] theorem State.len_raise (f : FatalInfo) : (s.raise f).len = s.len := by cases f <;> rfl
@[simp] theorem State.target_clearX0 (k : Int) : s.clearX0.target k = s.target k := rfl
@[simp] theorem State.target_writeReg (i : RegIdx) (v : Word) (k : Int) :
    (s.writeReg i v).target k = s.target k := rfl

end Len

/-! ### The Branch Resolver -/

/-- Everything the resolver can do (R134): advance, redirect, or raise IllegalBranchTarget. -/
theorem State.resolve_cases (s : State) (p : Option Int) :
    ((p = none ∨ p = some 0) ∧ s.resolve p = s.advance) ∨
    (∃ k, p = some k ∧ k ≠ 0 ∧ 0 ≤ s.target k ∧ s.target k ≤ s.len ∧
      s.resolve p = s.redirect (s.target k)) ∨
    (∃ k, p = some k ∧ k ≠ 0 ∧ (s.target k < 0 ∨ s.target k > s.len) ∧
      s.resolve p = s.raise (.illegalBranchTarget (s.target k))) := by
  cases p with
  | none => exact .inl ⟨.inl rfl, rfl⟩
  | some k =>
    by_cases hk : k = 0
    · exact .inl ⟨.inr (by rw [hk]), by simp [State.resolve, hk]⟩
    · by_cases ht : s.target k < 0 ∨ s.target k > s.len
      · exact .inr (.inr ⟨k, rfl, hk, ht, by simp only [State.resolve, if_neg hk, if_pos ht]⟩)
      · exact .inr (.inl ⟨k, rfl, hk, by omega, by omega,
          by simp only [State.resolve, if_neg hk, if_neg ht]⟩)

/-- The resolver writes no register. -/
@[simp] theorem State.resolve_x (s : State) (p : Option Int) : (s.resolve p).x = s.x := by
  rcases s.resolve_cases p with ⟨_, h⟩ | ⟨k, _, _, _, _, h⟩ | ⟨k, _, _, _, h⟩ <;> simp [h]

/-- The resolver drives no input and draws no free-value number. -/
theorem State.resolve_inputs (s : State) (p : Option Int) :
    (s.resolve p).mem = s.mem ∧ (s.resolve p).progLen = s.progLen ∧
      (s.resolve p).traceEn = s.traceEn ∧ (s.resolve p).rst = s.rst ∧
      (s.resolve p).freeIndex = s.freeIndex := by
  rcases s.resolve_cases p with ⟨_, h⟩ | ⟨k, _, _, _, _, h⟩ | ⟨k, _, _, _, h⟩ <;> simp [h]

/-! ### The end of a cycle -/

/-- After the end of a cycle register 0 is 0 and the others are as the handler left them (R105). -/
theorem State.readReg_endCycle (s : State) (p : Option Int) (r : RegIdx) :
    (s.endCycle p).readReg r = if r = 0 then 0 else s.readReg r := by
  have h : (s.endCycle p).x = s.clearX0.x := by simp [State.endCycle]
  have h' : (s.endCycle p).readReg r = s.clearX0.readReg r := by simp only [State.readReg, h]
  rw [h', State.readReg_clearX0]

/-- The end of a cycle drives no input. -/
theorem State.endCycle_inputs (s : State) (p : Option Int) :
    (s.endCycle p).mem = s.mem ∧ (s.endCycle p).progLen = s.progLen ∧
      (s.endCycle p).traceEn = s.traceEn ∧ (s.endCycle p).rst = s.rst ∧
      (s.endCycle p).freeIndex = s.freeIndex + 1 := by
  obtain ⟨h1, h2, h3, h4, h5⟩ := s.clearX0.resolve_inputs p
  simp [State.endCycle, h1, h2, h3, h4, h5]

/-- No offset, or offset 0: the cycle ends one index on (R134, R135). -/
theorem State.endCycle_of_no_offset (s : State) {p : Option Int} (h : p = none ∨ p = some 0) :
    s.endCycle p = s.clearX0.advance.nextFree := by
  rcases h with rfl | rfl <;> rfl

/-- An offset to a legal target: the cycle ends there (R134). -/
theorem State.endCycle_of_legal (s : State) {k : Int} (hk : k ≠ 0) (h0 : 0 ≤ s.pc.toInt + k)
    (h1 : s.pc.toInt + k ≤ s.len) :
    s.endCycle (some k) = (s.clearX0.redirect (s.pc.toInt + k)).nextFree := by
  have h : ¬ (s.clearX0.target k < 0 ∨ s.clearX0.target k > s.clearX0.len) := by
    simp only [State.target, State.clearX0_pc, State.len_clearX0]
    omega
  rw [State.endCycle, State.resolve, if_neg hk, if_neg h]
  rfl

/-- An offset to an illegal target: the cycle ends in IllegalBranchTarget (R134, R152). -/
theorem State.endCycle_of_illegal (s : State) {k : Int} (hk : k ≠ 0)
    (h : s.pc.toInt + k < 0 ∨ s.pc.toInt + k > s.len) :
    s.endCycle (some k) = (s.clearX0.raise (.illegalBranchTarget (s.pc.toInt + k))).nextFree := by
  have h : s.clearX0.target k < 0 ∨ s.clearX0.target k > s.clearX0.len := h
  rw [State.endCycle, State.resolve, if_neg hk, if_pos h]
  rfl

end Sys2Proof.Machine
end

