-- ==== Sys2Proof/Laws/PerInstr.lean ====
section
/-! SUPPORT. Statements made per instruction: the fields of an instruction's word, for any opcode
numbers (spec/30_encoding.md R70, R74). -/

namespace Sys2Proof.Laws.EncodedFields

/-- The word of `i` carries the opcode of its operation and its operands, each in its own field. -/
def Statement (i : Instr) : Prop :=
  ∀ m : OpcodeMap,
    (fields (encodeWith m i)).opcode = opcodeOf m i.kind ∧ (fields (encodeWith m i)).rs = i.rs ∧
      (fields (encodeWith m i)).rt = i.rt ∧ (fields (encodeWith m i)).imm = i.imm

theorem addi (rs rt : RegIdx) (imm : Imm16) : Statement (.addi rs rt imm) := by
  intro m
  simp [encodeWith, fields_formatI]

theorem beq (rs rt : RegIdx) (imm : Imm16) : Statement (.beq rs rt imm) := by
  intro m
  simp [encodeWith, fields_formatI]

theorem bne (rs rt : RegIdx) (imm : Imm16) : Statement (.bne rs rt imm) := by
  intro m
  simp [encodeWith, fields_formatI]

end Sys2Proof.Laws.EncodedFields
end

