-- ==== Sys2Proof/Laws/Step.lean ====
section
/-! SUPPORT. What exec and step can do, said once: exec always answers a next state of one form, and
a step's next state comes about in one of five ways. -/

namespace Sys2Proof.Machine

/-- What the handler writes, before the end of the cycle: ADDI its destination, a branch nothing. -/
def State.handled (s : State) : Instr → State
  | .addi rs rt imm => s.writeReg rt (s.addend rs imm)
  | .beq _ _ _ => s
  | .bne _ _ _ => s

/-- Every instruction runs to the end of its cycle (R100): its handler, then `pending` resolved. -/
theorem exec_eq_endCycle (i : Instr) (s : State) :
    exec i s = .next ((s.handled i).endCycle (s.pending i)) := by
  cases i <;> rfl

@[simp] theorem State.handled_pc (s : State) (i : Instr) : (s.handled i).pc = s.pc := by cases i <;> rfl
@[simp] theorem State.handled_len (s : State) (i : Instr) : (s.handled i).len = s.len := by
  cases i <;> rfl
@[simp] theorem State.handled_status (s : State) (i : Instr) : (s.handled i).status = s.status := by
  cases i <;> rfl
@[simp] theorem State.handled_faultCause (s : State) (i : Instr) :
    (s.handled i).faultCause = s.faultCause := by
  cases i <;> rfl
@[simp] theorem State.handled_mem (s : State) (i : Instr) : (s.handled i).mem = s.mem := by
  cases i <;> rfl
@[simp] theorem State.handled_progLen (s : State) (i : Instr) :
    (s.handled i).progLen = s.progLen := by
  cases i <;> rfl
@[simp] theorem State.handled_traceEn (s : State) (i : Instr) :
    (s.handled i).traceEn = s.traceEn := by
  cases i <;> rfl
@[simp] theorem State.handled_rst (s : State) (i : Instr) : (s.handled i).rst = s.rst := by
  cases i <;> rfl
@[simp] theorem State.handled_target (s : State) (i : Instr) (k : Int) :
    (s.handled i).target k = s.target k := by
  cases i <;> rfl

/-- Only a branch leaves an offset, and then its handler wrote nothing. -/
theorem State.handled_of_pending {s : State} {i : Instr} {k : Int} (h : s.pending i = some k) :
    s.handled i = s := by
  cases i with
  | addi rs rt imm => simp [State.pending, State.taken] at h
  | beq rs rt imm => rfl
  | bne rs rt imm => rfl

/-- A pending offset is the signed immediate. -/
theorem State.pending_eq_imm {s : State} {i : Instr} {k : Int} (h : s.pending i = some k) :
    k = sint16 i.imm := by
  cases i with
  | addi rs rt imm => simp [State.pending, State.taken] at h
  | beq rs rt imm =>
    simp only [State.pending, State.taken, pendingWhen, Option.ite_none_right_eq_some,
      Option.some.injEq] at h
    exact h.2.symm
  | bne rs rt imm =>
    simp only [State.pending, State.taken, pendingWhen, Option.ite_none_right_eq_some,
      Option.some.injEq] at h
    exact h.2.symm

/-- What each handler leaves pending (R130, R131). -/
theorem State.pending_addi (s : State) (rs rt : RegIdx) (imm : Imm16) :
    s.pending (.addi rs rt imm) = none := rfl

theorem State.pending_beq (s : State) (rs rt : RegIdx) (imm : Imm16) :
    s.pending (.beq rs rt imm) = if s.readReg rs = s.readReg rt then some (sint16 imm) else none := by
  simp [State.pending, State.taken, pendingWhen, State.regsEqual, Instr.imm]

theorem State.pending_bne (s : State) (rs rt : RegIdx) (imm : Imm16) :
    s.pending (.bne rs rt imm) = if s.readReg rs = s.readReg rt then none else some (sint16 imm) := by
  simp only [State.pending, State.taken, pendingWhen, State.regsEqual, Instr.imm, Bool.not_eq_true',
    beq_eq_false_iff_ne]
  split <;> simp_all

/-- exec with no offset left, or offset 0 (R134, R135). -/
theorem exec_of_no_offset {s : State} {i : Instr} (h : s.pending i = none ∨ s.pending i = some 0) :
    exec i s = .next (s.handled i).clearX0.advance.nextFree := by
  rw [exec_eq_endCycle, State.endCycle_of_no_offset _ h]

/-- exec with an offset to a legal target (R134). -/
theorem exec_of_legal {s : State} {i : Instr} {k : Int} (h : s.pending i = some k) (hk : k ≠ 0)
    (h0 : 0 ≤ s.pc.toInt + k) (h1 : s.pc.toInt + k ≤ s.len) :
    exec i s = .next (s.clearX0.redirect (s.pc.toInt + k)).nextFree := by
  rw [exec_eq_endCycle, State.handled_of_pending h, h, State.endCycle_of_legal _ hk h0 h1]

/-- exec with an offset to an illegal target (R134, R152). -/
theorem exec_of_illegal {s : State} {i : Instr} {k : Int} (h : s.pending i = some k) (hk : k ≠ 0)
    (ht : s.pc.toInt + k < 0 ∨ s.pc.toInt + k > s.len) :
    exec i s = .next (s.clearX0.raise (.illegalBranchTarget (s.pc.toInt + k))).nextFree := by
  rw [exec_eq_endCycle, State.handled_of_pending h, h, State.endCycle_of_illegal _ hk ht]

/-- The three ways an instruction's cycle ends. -/
theorem exec_cases (i : Instr) (s : State) :
    ((s.pending i = none ∨ s.pending i = some 0) ∧
      exec i s = .next (s.handled i).clearX0.advance.nextFree) ∨
    (∃ k, s.pending i = some k ∧ k ≠ 0 ∧ 0 ≤ s.pc.toInt + k ∧ s.pc.toInt + k ≤ s.len ∧
      exec i s = .next (s.clearX0.redirect (s.pc.toInt + k)).nextFree) ∨
    (∃ k, s.pending i = some k ∧ k ≠ 0 ∧ (s.pc.toInt + k < 0 ∨ s.pc.toInt + k > s.len) ∧
      exec i s = .next (s.clearX0.raise (.illegalBranchTarget (s.pc.toInt + k))).nextFree) := by
  cases hp : s.pending i with
  | none => exact .inl ⟨.inl rfl, exec_of_no_offset (.inl hp)⟩
  | some k =>
    by_cases hk : k = 0
    · exact .inl ⟨.inr (by rw [hk]), exec_of_no_offset (.inr (by rw [hp, hk]))⟩
    · by_cases ht : s.pc.toInt + k < 0 ∨ s.pc.toInt + k > s.len
      · exact .inr (.inr ⟨k, rfl, hk, ht, exec_of_illegal hp hk ht⟩)
      · exact .inr (.inl ⟨k, rfl, hk, by omega, by omega, exec_of_legal hp hk (by omega) (by omega)⟩)

/-- exec drives no input of the block. -/
theorem exec_inputs {i : Instr} {s t : State} (h : exec i s = .next t) :
    t.mem = s.mem ∧ t.progLen = s.progLen ∧ t.traceEn = s.traceEn ∧ t.rst = s.rst := by
  rw [exec_eq_endCycle] at h
  obtain rfl := Host.Outcome.next.inj h
  obtain ⟨h1, h2, h3, h4, _⟩ := (s.handled i).endCycle_inputs (s.pending i)
  simp [h1, h2, h3, h4]

/-- Where the fetch finds a word: pc is an index below LEN and that index holds it (R102). -/
theorem State.fetch_eq_ok {s : State} {w : Word} :
    s.fetch = .ok w ↔ (0 ≤ s.pc.toInt ∧ s.pc.toInt < s.len) ∧ s.mem.imem s.pc.toInt.toNat = some w := by
  unfold State.fetch
  split
  · next h =>
    split
    · next v hv => simp [h, hv]
    · next hv => simp [hv]
  · next h => simp [h]

/-- Where the fetch finds none: pc is no index below LEN, or that index holds no word (entry 6). -/
theorem State.fetch_eq_error {s : State} {f : Fault} :
    s.fetch = .error f ↔
      (f = .pcOutsideProgram ∧ ¬ (0 ≤ s.pc.toInt ∧ s.pc.toInt < s.len)) ∨
      (f = .programWordMissing ∧ (0 ≤ s.pc.toInt ∧ s.pc.toInt < s.len) ∧
        s.mem.imem s.pc.toInt.toNat = none) := by
  unfold State.fetch
  split
  · next h =>
    split
    · next v hv => simp [h, hv]
    · next hv => simp [h, hv, eq_comm]
  · next h => simp [h, eq_comm]

/-- The five events of a running block (R100). -/
theorem State.runningEvent_cases (s : State) :
    (¬ lenOk s.progLen ∧ s.runningEvent = .refuse) ∨
    (lenOk s.progLen ∧ s.pc.toInt = s.len ∧ s.runningEvent = .halt) ∨
    (lenOk s.progLen ∧ ∃ f, s.fetch = .error f ∧ s.runningEvent = .fetchFault f) ∨
    (lenOk s.progLen ∧ ∃ w op, s.fetch = .ok w ∧ decode w = .unimplemented op ∧
      s.runningEvent = .unimplemented op) ∨
    (lenOk s.progLen ∧ ∃ w i, s.fetch = .ok w ∧ decode w = .instr i ∧
      s.runningEvent = .dispatch w i) := by
  by_cases hl : lenOk s.progLen
  · by_cases hp : s.pc.toInt = s.len
    · exact .inr (.inl ⟨hl, hp, by simp [State.runningEvent, hl, hp]⟩)
    · cases hf : s.fetch with
      | error f => exact .inr (.inr (.inl ⟨hl, f, rfl, by simp [State.runningEvent, hl, hp, hf]⟩))
      | ok w =>
        cases hd : decode w with
        | unimplemented op =>
          exact .inr (.inr (.inr (.inl ⟨hl, w, op, rfl, hd, by simp [State.runningEvent, hl, hp, hf, dispatchEvent, hd]⟩)))
        | instr i =>
          exact .inr (.inr (.inr (.inr ⟨hl, w, i, rfl, hd, by simp [State.runningEvent, hl, hp, hf, dispatchEvent, hd]⟩)))
  · exact .inl ⟨hl, by simp [State.runningEvent, hl]⟩

/-- A step is the cycle of the state's event. -/
theorem step_of_event {s : State} {e : Event} (h : s.event = e) :
    step s = s.perform e := by
  subst h
  rfl

/-- `rst` comes first (R37, R180). -/
theorem State.event_of_rst {s : State} (h : s.rst = true) : s.event = .reset := by
  simp [State.event, h]

/-- Then the status (R155). -/
theorem State.event_of_halted {s : State} (hr : s.rst = false) (h : s.status ≠ .running) :
    s.event = .frozen := by
  cases hs : s.status <;> simp_all [State.event]

theorem State.event_of_running {s : State} (hr : s.rst = false) (h : s.status = .running) :
    s.event = s.runningEvent := by
  simp [State.event, hr, h]

/-- The five ways a step comes to a next state (R155). -/
theorem step_cases {s t : State} (h : step s = .next t) :
    (s.rst = true ∧ t = s.resetRun) ∨
    (s.rst = false ∧ s.status ≠ .running ∧ t = s) ∨
    (s.rst = false ∧ s.status = .running ∧ lenOk s.progLen ∧ s.pc.toInt = s.len ∧ t = s.haltNormal) ∨
    (s.rst = false ∧ s.status = .running ∧ lenOk s.progLen ∧ ∃ w op, s.fetch = .ok w ∧
      decode w = .unimplemented op ∧ t = (s.raise (.unimplementedOpcode op s.pc)).nextFree) ∨
    (s.rst = false ∧ s.status = .running ∧ lenOk s.progLen ∧ ∃ w i, s.fetch = .ok w ∧
      decode w = .instr i ∧ exec i s = .next t) := by
  cases hr : s.rst with
  | true =>
    rw [step_of_event (State.event_of_rst hr)] at h
    exact .inl ⟨rfl, (Host.Outcome.next.inj h).symm⟩
  | false =>
    by_cases hs : s.status = .running
    · have he := State.event_of_running hr hs
      rcases s.runningEvent_cases with ⟨_, e⟩ | ⟨hl, hp, e⟩ | ⟨_, f, _, e⟩ | ⟨hl, w, op, hf, hd, e⟩ |
        ⟨hl, w, i, hf, hd, e⟩
      · simp [step_of_event (he.trans e), State.perform] at h
      · rw [step_of_event (he.trans e)] at h
        exact .inr (.inr (.inl ⟨rfl, hs, hl, hp, (Host.Outcome.next.inj h).symm⟩))
      · simp [step_of_event (he.trans e), State.perform] at h
      · rw [step_of_event (he.trans e)] at h
        exact .inr (.inr (.inr (.inl ⟨rfl, hs, hl, w, op, hf, hd, (Host.Outcome.next.inj h).symm⟩)))
      · rw [step_of_event (he.trans e)] at h
        exact .inr (.inr (.inr (.inr ⟨rfl, hs, hl, w, i, hf, hd, h⟩)))
    · rw [step_of_event (State.event_of_halted hr hs)] at h
      exact .inr (.inl ⟨rfl, hs, (Host.Outcome.next.inj h).symm⟩)

/-- The one way a step comes to a fault: a running block whose fetch faults, away from LEN. -/
theorem step_fault_cases {s : State} {f : Fault} (h : step s = .fault f) :
    s.rst = false ∧ s.status = .running ∧ lenOk s.progLen ∧ s.pc.toInt ≠ s.len ∧
      s.fetch = .error f := by
  cases hr : s.rst with
  | true => simp [step_of_event (State.event_of_rst hr), State.perform] at h
  | false =>
    by_cases hs : s.status = .running
    · have he := State.event_of_running hr hs
      rcases s.runningEvent_cases with ⟨_, e⟩ | ⟨_, _, e⟩ | ⟨hl, g, hf, e⟩ | ⟨_, w, op, _, _, e⟩ |
        ⟨_, w, i, _, _, e⟩
      · simp [step_of_event (he.trans e), State.perform] at h
      · simp [step_of_event (he.trans e), State.perform] at h
      · have hp : s.pc.toInt ≠ s.len := by
          intro hp
          simp [State.runningEvent, hl, hp] at e
        rw [step_of_event (he.trans e)] at h
        exact ⟨rfl, hs, hl, hp, hf.trans (congrArg _ (Host.Outcome.fault.inj h))⟩
      · simp [step_of_event (he.trans e), State.perform] at h
      · simp [step_of_event (he.trans e), State.perform, exec_eq_endCycle] at h
    · simp [step_of_event (State.event_of_halted hr hs), State.perform] at h

/-- The event of a running block at an index below LEN is decided by the fetched word alone. -/
theorem State.event_of_fetch {s : State} {w : Word} (hr : s.rst = false) (hs : s.status = .running)
    (hl : lenOk s.progLen) (hf : s.fetch = .ok w) : s.event = dispatchEvent w := by
  have hpc : s.pc.toInt ≠ s.len := by
    have := (State.fetch_eq_ok.1 hf).1
    omega
  simp [State.event, State.runningEvent, hr, hs, hl, hpc, hf]

/-- One more cycle of a run. -/
theorem runFrom_succ (n : Nat) (s t : State) (h : step s = .next t) :
    runFrom (n + 1) s = runFrom n t := by
  have h' : core.step s = .next t := h
  simp only [runFrom, Host.Core.run, h']
  rfl

end Sys2Proof.Machine
end

