-- ==== Sys2Proof/Tests/Slice0.lean ====
section
/-! SUPPORT. The model's own tests. Expected results are those of spec/95_test_vectors.md (the vector
is named in each comment) or of the spec's encodings; none was computed with the model. The second
half shows, for every statement that has hypotheses, values that meet them, clause by clause. -/

namespace Sys2Proof.Machine

/-! ### Helpers -/

/-- A running block at `pc` in a program of `len` words of which `words` are loaded. -/
def block (pc : Word) (len : Word) (words : List (Nat × Word)) : State :=
  { State.reset with
    pc := pc
    progLen := len
    mem := words.foldl (fun m c => Memory.writeWord m c.1 c.2) [] }

/-- The next state, if there is one. -/
def landed : Host.Outcome State Fault Refusal → Option State
  | .next s => some s
  | .fault _ => none
  | .refused _ => none

/-- pc, status and the two registers the vectors name, of the next state. -/
def seen (a b : RegIdx) (o : Host.Outcome State Fault Refusal) :
    Option (Word × RunStatus × Word × Word) :=
  (landed o).map fun s => (s.pc, s.status, s.readReg a, s.readReg b)

/-- The branch vectors' state: pc 4, LEN 10, x[2] and x[3] as given. -/
def at4 (v2 v3 : Word) : State := ((block 4 10 []).writeReg 2 v2).writeReg 3 v3

/-! ### Well-formedness: each check refuses an ill-formed term -/

theorem test_wf_defaults : Config.opcodes.wf ∧ lenOk 2147450880 := by decide
theorem test_wf_refuses_equal_branches : ¬ OpcodeMap.wf { beq := 4, bne := 4 } := by decide
theorem test_wf_refuses_beq_as_addi : ¬ OpcodeMap.wf { beq := 8, bne := 5 } := by decide
theorem test_wf_refuses_bne_as_addi : ¬ OpcodeMap.wf { beq := 4, bne := 8 } := by decide
theorem test_wf_refuses_beq_zero : ¬ OpcodeMap.wf { beq := 0, bne := 5 } := by decide
theorem test_wf_refuses_bne_zero : ¬ OpcodeMap.wf { beq := 4, bne := 0 } := by decide
theorem test_wf_refuses_len_above_bound : ¬ lenOk 2147450881 := by decide
theorem test_wf_refuses_unsorted_memory : ¬ Memory.wf [(4, 1), (0, 1)] := by decide
theorem test_wf_refuses_repeated_address : ¬ Memory.wf [(4, 1), (4, 2)] := by decide

/-! ### Decoding: words written out from the spec's patterns (30_encoding.md R77) -/

/-- 001000 00000 00001 0000000000000101 (V-DEC-01). -/
theorem test_decode_addi : decode 0b00100000000000010000000000000101 = .instr (.addi 0 1 5) := by
  decide

/-- 000100 00011 00100 1000000000000000 (V-DEC-07). -/
theorem test_decode_beq : decode 0b00010000011001001000000000000000 = .instr (.beq 3 4 0x8000) := by
  decide

/-- 000101 11111 11110 0111111111111111 (V-DEC-08). -/
theorem test_decode_bne :
    decode 0b00010111111111100111111111111111 = .instr (.bne 31 30 0x7FFF) := by
  decide

/-- 000000 00001 00010 00011 00000100000: every field, R-type, rejected (V-DEC-11). -/
theorem test_decode_r_type :
    fields 0x00221820 = { opcode := 0, rs := 1, rt := 2, rd := 3, imm := 0x1820, funct := 32 } ∧
      decode 0x00221820 = .unimplemented 0 := by
  decide

/-- The edges of the opcode classes (95_test_vectors.md section 2.1). -/
theorem test_decode_edges :
    decode 0x1FFFFFFF = .unimplemented 7 ∧ decode 0x24000000 = .unimplemented 9 ∧
      decode 0x0FFFFFFF = .unimplemented 3 ∧ decode 0x18000000 = .unimplemented 6 := by
  decide

/-- The encoder on the spec's words (V-DEC-02, V-DEC-06, V-DEC-09). -/
theorem test_encode :
    encode (.addi 0 1 0xFFFF) = 0x2001FFFF ∧ encode (.beq 1 1 0xFFFF) = 0x1021FFFF ∧
      encode (.bne 1 0 3) = 0x14200003 := by
  decide

/-- The idioms of 30_encoding.md R83: no operation, a constant, a copy, an unconditional branch. -/
theorem test_encode_idioms :
    encode (.addi 0 0 0) = 0x20000000 ∧ encode (.addi 0 4 9) = 0x20040009 ∧
      encode (.addi 2 1 0) = 0x20410000 ∧ encode (.beq 0 0 1) = 0x10000001 := by
  decide

/-- The table's numbering and a byte image, most significant byte first (R54, D12). -/
theorem test_decode_bytes :
    decodeTableWord 32 0x20010005 = some (.addi 0 1 5) ∧ decodeTableWord 32 0 = none ∧
      decodeBytes [0x10, 0x21, 0xFF, 0xFF, 0x07] = .ok (.beq 1 1 0xFFFF, [0x07]) ∧
      decodeBytes [0x10, 0x21, 0xFF] = .error (.truncated 3) := by
  decide

/-! ### ADDI -/

/-- V-ADDI-05: 0x7FFFFFFF + 1 wraps, no trap. -/
theorem test_addi_wraps :
    seen 1 2 (step ((block 0 2 [(0, 0x20210001)]).writeReg 1 0x7FFFFFFF))
      = some (1, .running, 0x80000000, 0) := by
  decide

/-- V-ADDI-15: `addi $0, $1, 1234` changes no register. -/
theorem test_addi_to_register_zero :
    seen 0 1 (step ((block 0 2 [(0, 0x202004D2)]).writeReg 1 7)) = some (1, .running, 0, 7) := by
  decide

/-! ### BEQ and BNE -/

/-- V-BR-07: a taken branch with offset 0 goes on. -/
theorem test_beq_offset_zero :
    seen 2 3 (step (block 4 10 [(4, 0x10000000)])) = some (5, .running, 0, 0) := by
  decide

/-- V-BR-06: target -1 is fatal, named, and pc stays. -/
theorem test_beq_below_zero :
    (landed (exec (.beq 2 3 0xFFFB) (at4 1 1))).map
        (fun t => (t.pc, t.status, t.faultCause, t.faultTarget))
      = some (4, .haltedFatal, .illegalBranchTarget, -1) := by
  decide

/-- V-BR-15: the values differ in bit 31 only: taken, target 14 of 10. -/
theorem test_bne_compares_all_bits :
    (landed (exec (.bne 2 3 5) { at4 0x00000001 0x80000001 with pc := 9 })).map
        (fun t => (t.pc, t.status, t.faultTarget))
      = some (9, .haltedFatal, 14) := by
  decide

/-- V-BR-12: one register against itself never branches, and the wild offset is not checked. -/
theorem test_bne_same_register :
    seen 2 3 (exec (.bne 2 2 0x8000) (at4 9 9)) = some (5, .running, 9, 9) := by
  decide

/-! ### The run-state machine -/

/-- S-A: the all-zero word is fatal. -/
theorem test_zero_word_is_fatal :
    (landed (step (block 0 1 [(0, 0)]))).map
        (fun t => (t.pc, t.status, t.faultCause, t.faultOpcode, t.faultPc))
      = some (0, .haltedFatal, .unimplementedOpcode, 0, 0) := by
  decide

/-- S-E: an empty program halts normally on the first cycle. -/
theorem test_empty_program_halts : step State.reset = .next { State.reset with status := .haltedNormal } :=
  rfl

/-- V-BR-10: the end index is a legal target. -/
theorem test_branch_to_end_index :
    seen 2 3 (exec (.beq 2 3 6) (at4 0 0)) = some (10, .running, 0, 0) := by
  decide

/-- V-BR-11: one past the end index is not. -/
theorem test_branch_past_end_index :
    (landed (exec (.beq 2 3 7) (at4 0 0))).map (fun t => (t.pc, t.status, t.faultTarget))
      = some (4, .haltedFatal, 11) := by
  decide

/-- V-RST-02: reset out of Halted-Fatal. -/
theorem test_reset_out_of_fatal :
    (landed (step { at4 1 1 with status := .haltedFatal, faultCause := .illegalBranchTarget, rst := true })).map
        (fun t => (t.pc, t.status, t.faultCause, t.readReg 2))
      = some (0, .running, .none, 0) := by
  decide

/-- R41 for V-BR-21: the record of `beq $1, $1, -1` at index 1. -/
theorem test_retire_event_of_branch :
    ({ (block 1 2 [(1, 0x1021FFFF)]).writeReg 1 1 with traceEn := true } : State).retireEvent
      = some { pc := 1, word := 0x1021FFFF, kind := .beq, rs := 1, rt := 1, imm := -1, value := none,
               taken := some true, target := some 0 } := by
  decide

/-! ### Witnesses: values that meet a statement's hypotheses -/

/-- A running block that satisfies the invariant, with one word at pc. -/
def sample (w : Word) : State := block 0 1 [(0, w)]

theorem sample_executes : (sample 0x20010005).Executes 0x20010005 ∧ (sample 0x1000FFFF).Executes 0x1000FFFF ∧
    (sample 0).Executes 0 := by
  decide

theorem sample_inv : (sample 0x20010005).Inv ∧ (sample 0x20010005).Loaded :=
  ⟨⟨by decide, by decide, by decide, by decide, by decide, rfl⟩, by decide⟩

/-- pc at the end index, and a branch about to go below 0: both states are in the invariant. -/
theorem end_index_inv : (block 1 1 [(0, 0x20010005)]).Inv :=
  ⟨by decide, by decide, by decide, by decide, by decide, rfl⟩

theorem branch_inv : (sample 0x1000FFFF).Inv := ⟨by decide, by decide, by decide, by decide, by decide, rfl⟩

/-- DecodeOfEncodeIsTheInstruction: the defaults and another legal map. -/
theorem witness_opcode_maps : Config.opcodes.wf ∧ OpcodeMap.wf { beq := 1, bne := 63 } := by decide

/-- EncodeOfDecodeIsTheWord: one word of each operation. -/
theorem witness_decoded_words :
    classify Config.opcodes 0x23FF8000 = .instr (.addi 31 31 0x8000) ∧
      classify Config.opcodes 0x13FFFFFF = .instr (.beq 31 31 0xFFFF) ∧
      classify Config.opcodes 0x14000000 = .instr (.bne 0 0 0) := by
  decide

/-- DecoderCutsTheSixFields, last clause: with nothing and with something after the word. -/
theorem witness_decoded_bytes :
    decodeBytes [0x20, 0x01, 0x00, 0x05] = .ok (.addi 0 1 5, []) ∧
      decodeBytes [0x20, 0x01, 0x00, 0x05, 0xFF] = .ok (.addi 0 1 5, [0xFF]) := by
  decide

/-- RejectedWordsAreTheOtherOpcodes: two words of one rejected opcode, at the last opcode. -/
theorem witness_rejected_words :
    (fields 0xFC000000).opcode = (fields 0xFFFFFFFF).opcode ∧
      classify Config.opcodes 0xFC000000 = .unimplemented 63 := by
  decide

/-- ByteImageDecodesAsItsWord: an instruction and a rejected word. -/
theorem witness_byte_images :
    (0x20010005 : Word).toNat
        = (0x20 : Byte).toNat * 16777216 + (0x01 : Byte).toNat * 65536 + (0x00 : Byte).toNat * 256
          + (0x05 : Byte).toNat ∧
      decode 0x20010005 = .instr (.addi 0 1 5) ∧
      (0 : Word).toNat
        = (0 : Byte).toNat * 16777216 + (0 : Byte).toNat * 65536 + (0 : Byte).toNat * 256
          + (0 : Byte).toNat ∧
      decode 0 = .unimplemented 0 := by
  decide

/-- AddiResultAndFrame, AddiAddsModulo2Pow32, SourcesAreReadBeforeTheWrite,
WriteThenClearEqualsSuppressedWrite, NextInstructionSeesTheNewValue: destinations other than 0, up to
the last register, and a state whose register 0 is 0. -/
theorem witness_destinations :
    (1 : RegIdx) ≠ 0 ∧ (31 : RegIdx) ≠ 0 ∧ (2 : RegIdx) ≠ 31 ∧ (sample 0).readReg 0 = 0 := by
  decide

/-- SourcesAreReadBeforeTheWrite, last clause: an ADDI that changes its destination. -/
theorem witness_changed_register :
    (landed (exec (.addi 0 1 5) (sample 0))).map (fun t => t.readReg 1) = some 5 ∧
      (sample 0).readReg 1 = 0 := by
  decide

/-- BeqResultAndFrame: registers that differ; offset 0 with equal ones; targets 0 and LEN. -/
theorem witness_beq_clauses :
    (at4 7 8).readReg 2 ≠ (at4 7 8).readReg 3 ∧ (at4 7 7).readReg 2 = (at4 7 7).readReg 3 ∧
      (0xFFFC : Imm16) ≠ 0 ∧ (at4 7 7).pc.toInt + sint16 0xFFFC = 0 ∧
      (6 : Imm16) ≠ 0 ∧ (at4 7 7).pc.toInt + sint16 6 = (at4 7 7).len := by
  decide

/-- BneResultAndFrame, ExactlyOneOfBeqAndBneIsTaken: the same targets with registers that differ in
bit 31 only, and with equal ones. -/
theorem witness_bne_clauses :
    (at4 1 0x80000001).readReg 2 ≠ (at4 1 0x80000001).readReg 3 ∧
      ((at4 1 0x80000001).readReg 2).getLsbD 31 ≠ ((at4 1 0x80000001).readReg 3).getLsbD 31 ∧
      0 ≤ (at4 1 0x80000001).pc.toInt + sint16 0xFFFC ∧
      (at4 1 0x80000001).pc.toInt + sint16 6 ≤ (at4 1 0x80000001).len ∧
      (∀ j < 32, ((at4 1 1).readReg 2).getLsbD j = ((at4 1 1).readReg 3).getLsbD j) := by
  decide

/-- TakenBranchOutOfRangeIsFatal: targets -1 and LEN + 1. -/
theorem witness_illegal_targets :
    (at4 1 1).pc.toInt + sint16 0xFFFB = -1 ∧ (at4 1 1).pc.toInt + sint16 7 = (at4 1 1).len + 1 ∧
      (0xFFFB : Imm16) ≠ 0 ∧ (7 : Imm16) ≠ 0 := by
  decide

/-- RejectedTargetIsRecordedExactly: a branch of a run that ends Halted-Fatal, at target -1. -/
theorem witness_rejected_target :
    (sample 0x1000FFFF).pc.toInt < (sample 0x1000FFFF).len ∧ (sample 0x1000FFFF).status = .running ∧
      (landed (exec (.beq 0 0 0xFFFF) (sample 0x1000FFFF))).map (fun t => t.status)
        = some .haltedFatal := by
  decide

/-- BranchTargetIsOwnIndexPlusOffset: LEN within the bound, targets 0 and LEN, pc below LEN. -/
theorem witness_branch_target :
    lenOk (at4 1 1).progLen ∧ 0 ≤ (at4 1 1).pc.toInt ∧ (at4 1 1).pc.toInt < (at4 1 1).len ∧
      0 ≤ (at4 1 1).pc.toInt + sint16 0xFFFC ∧ (at4 1 1).pc.toInt + sint16 6 ≤ (at4 1 1).len := by
  decide

/-- NoInstructionLoopsOnItself: a taken branch with offset 0 that leaves the block running. -/
theorem witness_no_self_loop :
    lenOk (at4 1 1).progLen ∧ (at4 1 1).status = .running ∧
      (landed (exec (.beq 2 3 0) (at4 1 1))).map (fun t => t.status) = some .running := by
  decide

/-- StepRunsTheDecodedInstruction, PcFollowsTheTable, RetireEventOfADispatchedInstruction: a word of
each operation at pc, decoded, and a rejected one. -/
theorem witness_executes :
    (sample 0x20010005).Executes 0x20010005 ∧ decode 0x20010005 = .instr (.addi 0 1 5) ∧
      (sample 0x1000FFFF).Executes 0x1000FFFF ∧ decode 0x1000FFFF = .instr (.beq 0 0 0xFFFF) ∧
      (sample 0x14000001).Executes 0x14000001 ∧ decode 0x14000001 = .instr (.bne 0 0 1) ∧
      (sample 0).Executes 0 ∧ decode 0 = .unimplemented 0 := by
  decide

/-- RetireEventOfADispatchedInstruction, NoOtherRetireEvent: the same block with tracing on presents a
record. -/
theorem witness_retire_event :
    ({ sample 0x20010005 with traceEn := true } : State).Executes 0x20010005 ∧
      ({ sample 0x20010005 with traceEn := true } : State).retireEvent ≠ none := by
  decide

/-- PcFollowsTheTable, PcIsWrittenByTheResolver, RegisterZeroIsClearedByEveryInstruction: nothing
pending, offset 0, a legal offset (to LEN) and an illegal one. -/
theorem witness_pending :
    (sample 0).pending (.addi 0 1 5) = none ∧ (sample 0).pending (.beq 0 0 0) = some 0 ∧
      (sample 0).pending (.beq 0 0 1) = some 1 ∧ (sample 0).pc.toInt + 1 = (sample 0).len ∧
      (sample 0).pending (.beq 0 0 0xFFFF) = some (-1) := by
  decide

/-- CycleLooksAtOneWord: a loaded program, and another one with the same word at pc. -/
theorem witness_other_program :
    (sample 0x20010005).Loaded ∧ 0 ≤ (sample 0x20010005).pc.toInt ∧
      (sample 0x20010005).pc.toInt < (sample 0x20010005).len ∧
      (block 0 1 [(0, 0x20010005), (7, 9)]).mem ≠ (sample 0x20010005).mem ∧
      (block 0 1 [(0, 0x20010005), (7, 9)]).mem.imem 0 = (sample 0x20010005).mem.imem 0 ∧
      (landed (step (sample 0x20010005))).isSome = true := by
  decide

/-- NormalHaltAtTheEndIndex: pc at LEN; reset asserted with LEN = 0; a step into Halted-Normal. -/
theorem witness_normal_halt :
    (block 7 7 []).pc.toInt = (block 7 7 []).len ∧ lenOk (block 7 7 []).progLen ∧
      (block 7 7 []).rst = false ∧ (block 7 7 []).status = .running ∧
      ({ State.reset with rst := true } : State).progLen = 0 ∧
      (landed (step (block 7 7 []))).map (fun t => t.status) = some .haltedNormal := by
  decide

/-- HaltedStatesAreFrozen: both halted values. -/
theorem witness_halted :
    ({ at4 1 1 with status := .haltedNormal } : State).status ≠ .running ∧
      ({ at4 1 1 with status := .haltedFatal } : State).status ≠ .running ∧ (at4 1 1).rst = false := by
  decide

/-- FinalStateIsUnique: the empty program ends after one cycle. -/
theorem witness_final_state : EndsIn State.reset { State.reset with status := .haltedNormal } := by
  refine ⟨1, rfl, by decide, fun m hm u hu => ?_⟩
  obtain rfl : m = 0 := by omega
  cases hu
  rfl

/-- ProgramIsFixedForTheRun, RunStateTransitionsAreClosed, TraceEnableHasNoEffect: steps that answer a
next state, and for the last also a fault and a refusal. -/
theorem witness_outcomes :
    runFrom 0 State.reset = .next State.reset ∧ (landed (step State.reset)).isSome = true ∧
      step (block 0 1 []) = .fault .programWordMissing ∧
      step (block 0 2147450881 []) = .refused .progLenAboveBound :=
  ⟨rfl, by decide, rfl, rfl⟩

/-- PlacedWordIsTheOneRun: the first and the last index the bound admits. -/
theorem witness_placed_word :
    Memory.wf State.reset.mem ∧ 0 ≤ (block 0 0 []).pc.toInt ∧ (block 0 0 []).pc.toInt < 2147450880 ∧
      (block 2147450879 0 []).pc.toInt = 2147450879 ∧
      decodeTableWord 32 (0x20010005 : Word).toNat = some (.addi 0 1 5) := by
  decide

/-- OtherOpcodeIsFatal, OpcodeZeroIsNeverSkipped: opcode 0 and opcode 63 at pc. -/
theorem witness_other_opcodes :
    (sample 0).Executes 0 ∧ (fields 0).opcode = 0 ∧ (sample 0xFFFFFFFF).Executes 0xFFFFFFFF ∧
      (fields 0xFFFFFFFF).opcode ≠ Config.opcAddi ∧
      (fields 0xFFFFFFFF).opcode ≠ Config.opcodes.beq ∧
      (fields 0xFFFFFFFF).opcode ≠ Config.opcodes.bne := by
  decide

/-- LenAboveTheBoundIsRefused: the first LEN above the bound, running. -/
theorem witness_len_above_bound :
    (block 0 2147450881 []).progLen.toNat > 2147450880 ∧ (block 0 2147450881 []).rst = false ∧
      (block 0 2147450881 []).status = .running := by
  decide

/-- FetchStopsOnlyOutsideALoadedProgram: pc -1, pc LEN + 1, and a word nobody loaded at LEN - 1. -/
theorem witness_fetch_stops :
    (block 0xFFFFFFFF 10 []).pc.toInt < 0 ∧ (block 11 10 []).pc.toInt > (block 11 10 []).len ∧
      lenOk (block 11 10 []).progLen ∧ (block 9 10 []).pc.toInt < (block 9 10 []).len ∧
      (block 9 10 []).mem.imem 9 = none := by
  decide

/-- FetchStopsOnlyOutsideALoadedProgram, last clause: steps that fault, at the same three edges. -/
theorem witness_fetch_faults :
    step (block 0xFFFFFFFF 10 []) = .fault .pcOutsideProgram ∧
      step (block 11 10 []) = .fault .pcOutsideProgram ∧
      step (block 9 10 []) = .fault .programWordMissing := by
  refine ⟨rfl, rfl, rfl⟩

/-- ResetLeavesZeroAndRunning, ResetStartsANewRunFromAnyState, EveryRunStartsInTheInvariant: reset
asserted in a Halted-Fatal block with a program. -/
theorem witness_reset :
    ({ sample 0 with status := .haltedFatal, rst := true } : State).rst = true ∧
      lenOk (sample 0).progLen ∧ (sample 0).mem.wf ∧
      ({ State.reset with rst := true } : State).progLen = 0 := by
  decide

/-- StepKeepsTheInvariant, LoadedRunNeverStops: a loaded block in the invariant that steps. -/
theorem witness_invariant :
    (sample 0x20010005).Inv ∧ (sample 0x20010005).Loaded ∧
      (landed (step (sample 0x20010005))).isSome = true :=
  ⟨sample_inv.1, sample_inv.2, by decide⟩

end Sys2Proof.Machine
end

section
/-! PROOFS. Encoding (spec/30_encoding.md R70): the fields of a word as quotients and remainders, the
word of an instruction as a sum, and the one length of a word. -/

namespace Sys2Proof.Machine

/-- R70: the six fields as numbers. The opcode is the top field, so its quotient needs no remainder. -/
theorem fields_toNat (w : Word) :
    (fields w).opcode.toNat = w.toNat / 67108864 ∧
    (fields w).rs.toNat = w.toNat / 2097152 % 32 ∧
    (fields w).rt.toNat = w.toNat / 65536 % 32 ∧
    (fields w).rd.toNat = w.toNat / 2048 % 32 ∧
    (fields w).imm.toNat = w.toNat % 65536 ∧
    (fields w).funct.toNat = w.toNat % 2048 := by
  have opcodeFits : w.toNat / 67108864 < 64 := Nat.div_lt_of_lt_mul w.isLt
  simp only [fields, toNat_slice]
  omega

/-- R8: `sint_16` by cases on the sign. -/
theorem sint16_eq_ite (v : Imm16) :
    sint16 v = if v.toNat < 32768 then (v.toNat : Int) else (v.toNat : Int) - 65536 := by
  have sign : 2 * v.toNat < 2 ^ 16 ↔ v.toNat < 32768 := by omega
  simp only [sint16, BitVec.toInt_eq_toNat_cond, sign]
  rfl

/-- R70: the word of an instruction is the sum of its operands, each times the weight of its place. -/
theorem encodeWith_toNat (m : OpcodeMap) (i : Instr) :
    (encodeWith m i).toNat = (opcodeOf m i.kind).toNat * 67108864 + i.rs.toNat * 2097152 +
      i.rt.toNat * 65536 + i.imm.toNat :=
  formatI_toNat _ _ _ _

/-- What a byte image that decodes looks like: one word of four bytes, then what is left (R70). -/
theorem decodeBytes_ok {bs rest : List Byte} {i : Instr} (h : decodeBytes bs = .ok (i, rest)) :
    ∃ b0 b1 b2 b3, bs = b0 :: b1 :: b2 :: b3 :: rest ∧
      decode (wordOfBytes Config.imageByteOrder b0 b1 b2 b3) = .instr i := by
  unfold decodeBytes at h
  split at h
  · next b0 b1 b2 b3 tail =>
    split at h
    · next j hj =>
      cases h
      exact ⟨b0, b1, b2, b3, rfl, hj⟩
    · cases h
  · cases h

/-- Settles O3: the fields are slices read as numbers, the sign extension of the immediate is its
signed value, and a decoded image starts with the four bytes of one word. -/
theorem decoderCutsTheSixFields : Obligations.DecoderCutsTheSixFields := by
  refine ⟨fun w => ?_, encodeWith_toNat, fun bs rest i h => ?_⟩
  · obtain ⟨hop, hrs, hrt, hrd, himm, hfunct⟩ := fields_toNat w
    refine ⟨hop, hrs, hrt, hrd, himm, hfunct, ?_⟩
    rw [toInt_sext32, sint16_eq_ite, himm]
  · obtain ⟨b0, b1, b2, b3, rfl, -⟩ := decodeBytes_ok h
    rfl

end Sys2Proof.Machine
end

section
/-! PROOFS. The execution cycle (spec/40_execution_cycle.md R101 to R106): what an instruction reads
and writes, where it leaves pc, that the cycle looks at one word of PROG, and the normal halt. -/

namespace Sys2Proof.Machine

/-! ### Registers across one instruction (R104, R105) -/

/-- What a handler leaves in a register: an ADDI the sum in its destination, everything else as it was. -/
theorem State.readReg_handled (s : State) (i : Instr) (r : RegIdx) :
    (s.handled i).readReg r =
      if i.kind = .addi ∧ r = i.rt then s.readReg i.rs + sext32 i.imm else s.readReg r := by
  cases i with
  | addi rs rt imm =>
    simp [State.handled, State.readReg_writeReg, State.addend, Instr.kind, Instr.rt, Instr.rs,
      Instr.imm, eq_comm]
  | beq rs rt imm => simp [State.handled, Instr.kind]
  | bne rs rt imm => simp [State.handled, Instr.kind]

/-- Every register after an instruction: register 0 cleared, the others as the handler left them. -/
theorem readReg_of_exec {i : Instr} {s t : State} (h : exec i s = .next t) (r : RegIdx) :
    t.readReg r = if r = 0 then 0 else (s.handled i).readReg r := by
  rw [exec_eq_endCycle] at h
  obtain rfl := Host.Outcome.next.inj h
  exact State.readReg_endCycle _ _ r

/-- An instruction that leaves an offset is a branch, and a branch writes no register. -/
theorem readReg_of_exec_of_pending {i : Instr} {s t : State} {k : Int} (h : exec i s = .next t)
    (hp : s.pending i = some k) {r : RegIdx} (hr : r ≠ 0) : t.readReg r = s.readReg r := by
  rw [readReg_of_exec h, if_neg hr, State.handled_of_pending hp]

/-- ADDI reads its source at the preceding boundary, `rs = rt` included (R104). -/
theorem exec_addi_writes_sum (rs rt : RegIdx) (imm : Imm16) (s : State) (hrt : rt ≠ 0) :
    ∃ t, exec (.addi rs rt imm) s = .next t ∧ t.readReg rt = s.readReg rs + sext32 imm := by
  refine ⟨_, exec_eq_endCycle _ _, ?_⟩
  rw [readReg_of_exec (exec_eq_endCycle _ _), if_neg hrt, State.readReg_handled, if_pos ⟨rfl, rfl⟩]
  rfl

/-- With register 0 at 0, the one register an instruction can change is an ADDI's destination. -/
theorem changed_register_is_addi_destination {i : Instr} {s t : State} {r : RegIdx}
    (h0 : s.readReg 0 = 0) (h : exec i s = .next t) (hne : t.readReg r ≠ s.readReg r) :
    i.kind = .addi ∧ r = i.rt := by
  have hr : r ≠ 0 := by
    rintro rfl
    exact hne (by rw [readReg_of_exec h, if_pos rfl, h0])
  rw [readReg_of_exec h, if_neg hr, State.readReg_handled] at hne
  by_contra hdest
  exact hne (if_neg hdest)

/-- Settles O11: the sum uses the registers of the state before the write, and the handler's one
write is an ADDI's. -/
theorem sourcesAreReadBeforeTheWrite : Obligations.SourcesAreReadBeforeTheWrite := by
  refine ⟨fun r => exec_addi_writes_sum r r, exec_addi_writes_sum,
    fun rt imm s hrt h0 => ?_, fun rs imm s h0 => ?_,
    fun _ _ _ h0 h _ hne => changed_register_is_addi_destination h0 h hne⟩
  · obtain ⟨t, h, hsum⟩ := exec_addi_writes_sum 0 rt imm s hrt
    exact ⟨t, h, by rw [hsum, h0, zero_add]⟩
  · rw [State.pending_beq, State.pending_bne, h0]
    simp only [eq_comm, and_self]

/-- Settles O23: the end of the cycle clears register 0 on every path of the resolver. -/
theorem registerZeroIsClearedByEveryInstruction :
    Obligations.RegisterZeroIsClearedByEveryInstruction := by
  intro i s
  have h := exec_eq_endCycle i s
  refine ⟨_, h, ?_, fun k hp r hr => readReg_of_exec_of_pending h hp hr⟩
  rw [readReg_of_exec h, if_pos rfl]

/-! ### pc after one instruction (R106) -/

theorem pc_of_exec_of_no_offset {i : Instr} {s t : State} (h : exec i s = .next t)
    (hp : s.pending i = none ∨ s.pending i = some 0) : t.pc = s.pc + 1 ∧ t.status = s.status := by
  rw [exec_of_no_offset hp] at h
  obtain rfl := Host.Outcome.next.inj h
  simp

theorem pc_of_exec_of_legal {i : Instr} {s t : State} {k : Int} (h : exec i s = .next t)
    (hp : s.pending i = some k) (hk : k ≠ 0) (h0 : 0 ≤ s.pc.toInt + k)
    (h1 : s.pc.toInt + k ≤ s.len) :
    t.pc = BitVec.ofInt 32 (s.pc.toInt + k) ∧ t.status = s.status := by
  rw [exec_of_legal hp hk h0 h1] at h
  obtain rfl := Host.Outcome.next.inj h
  simp

theorem pc_of_exec_of_illegal {i : Instr} {s t : State} {k : Int} (h : exec i s = .next t)
    (hp : s.pending i = some k) (hk : k ≠ 0)
    (ht : s.pc.toInt + k < 0 ∨ s.pc.toInt + k > s.len) :
    t.pc = s.pc ∧ t.status = .haltedFatal := by
  rw [exec_of_illegal hp hk ht] at h
  obtain rfl := Host.Outcome.next.inj h
  simp

/-- An ADDI leaves no offset. -/
theorem State.pending_of_kind_addi {i : Instr} (s : State) (h : i.kind = .addi) :
    s.pending i = none := by
  cases i with
  | addi rs rt imm => exact s.pending_addi rs rt imm
  | beq rs rt imm => cases h
  | bne rs rt imm => cases h

/-- After an instruction the fetch is at the new pc, in the program as it was. -/
theorem fetch_of_exec {i : Instr} {s t : State} {w : Word} (h : exec i s = .next t)
    (h0 : 0 ≤ t.pc.toInt) (h1 : t.pc.toInt < t.len)
    (hw : s.mem.imem t.pc.toInt.toNat = some w) : t.fetch = .ok w := by
  obtain ⟨hmem, -⟩ := exec_inputs h
  exact State.fetch_eq_ok.2 ⟨⟨h0, h1⟩, hmem ▸ hw⟩

/-- Settles O24: one clause per branch of the resolver, and the fetch that follows. -/
theorem pcIsWrittenByTheResolver : Obligations.PcIsWrittenByTheResolver := by
  intro i s
  have h := exec_eq_endCycle i s
  exact ⟨_, h, pc_of_exec_of_no_offset h,
    fun hi => pc_of_exec_of_no_offset h (.inl (s.pending_of_kind_addi hi)),
    fun _ hp hk h0 h1 => pc_of_exec_of_legal h hp hk h0 h1,
    fun _ hp hk ht => pc_of_exec_of_illegal h hp hk ht,
    fun h0 h1 _ hw => fetch_of_exec h h0 h1 hw⟩

/-! ### The cycle looks at one word of PROG (R102) -/

/-- The same block with another program. -/
def State.withProgram (s : State) (m : Memory) : State := { s with mem := m }

section WithProgram

variable {s t : State} {m : Memory}

theorem State.pending_withProgram (s : State) (m : Memory) (i : Instr) :
    (s.withProgram m).pending i = s.pending i := by
  cases i <;> rfl

theorem State.handled_withProgram (s : State) (m : Memory) (i : Instr) :
    (s.withProgram m).handled i = (s.handled i).withProgram m := by
  cases i <;> rfl

theorem State.fetch_withProgram
    (h : m.imem s.pc.toInt.toNat = s.mem.imem s.pc.toInt.toNat) :
    (s.withProgram m).fetch = s.fetch := by
  have hword : (s.withProgram m).mem.imem (s.withProgram m).pc.toInt.toNat
      = s.mem.imem s.pc.toInt.toNat := h
  rw [State.fetch, hword]
  rfl

/-- The event depends on PROG through the word at pc only. -/
theorem State.event_withProgram
    (h : m.imem s.pc.toInt.toNat = s.mem.imem s.pc.toInt.toNat) :
    (s.withProgram m).event = s.event := by
  have hrun : (s.withProgram m).runningEvent = s.runningEvent := by
    simp only [State.runningEvent, State.fetch_withProgram h]
    rfl
  simp only [State.event, hrun]
  rfl

/-- An instruction does not look at PROG at all. -/
theorem exec_withProgram {i : Instr} (h : exec i s = .next t) :
    exec i (s.withProgram m) = .next (t.withProgram m) := by
  have hpend := s.pending_withProgram m i
  rcases exec_cases i s with ⟨hp, e⟩ | ⟨k, hp, hk, h0, h1, e⟩ | ⟨k, hp, hk, ht, e⟩
  · obtain rfl := Host.Outcome.next.inj (e.symm.trans h)
    rw [exec_of_no_offset (by rwa [hpend]), State.handled_withProgram]
    rfl
  · obtain rfl := Host.Outcome.next.inj (e.symm.trans h)
    exact exec_of_legal (hpend.trans hp) hk h0 h1
  · obtain rfl := Host.Outcome.next.inj (e.symm.trans h)
    exact exec_of_illegal (hpend.trans hp) hk ht

/-- Once the event is known, PROG plays no part. -/
theorem State.perform_withProgram {e : Event} (h : s.perform e = .next t) :
    (s.withProgram m).perform e = .next (t.withProgram m) := by
  cases e with
  | reset => obtain rfl := Host.Outcome.next.inj h; rfl
  | frozen => obtain rfl := Host.Outcome.next.inj h; rfl
  | refuse => cases h
  | halt => obtain rfl := Host.Outcome.next.inj h; rfl
  | fetchFault f => cases h
  | unimplemented op => obtain rfl := Host.Outcome.next.inj h; rfl
  | dispatch w i => exact exec_withProgram h

theorem step_withProgram (hw : m.imem s.pc.toInt.toNat = s.mem.imem s.pc.toInt.toNat)
    (h : step s = .next t) : step (s.withProgram m) = .next (t.withProgram m) := by
  rw [step_of_event (State.event_withProgram hw)]
  exact State.perform_withProgram h

end WithProgram

/-- Inside a loaded program the fetch gives `IMem(pc)`. -/
theorem State.Loaded.fetch {s : State} (h : s.Loaded) (h0 : 0 ≤ s.pc.toInt)
    (h1 : s.pc.toInt < s.len) : ∃ w, s.mem.imem s.pc.toInt.toNat = some w ∧ s.fetch = .ok w := by
  have hlt : s.pc.toInt.toNat < s.progLen.toNat := (Int.toNat_lt h0).2 h1
  obtain ⟨w, hw⟩ := Option.isSome_iff_exists.1 (h _ hlt)
  exact ⟨w, hw, State.fetch_eq_ok.2 ⟨⟨h0, h1⟩, hw⟩⟩

/-- Settles O22: every index below LEN holds a word, and PROG enters the cycle by the word at pc. -/
theorem cycleLooksAtOneWord : Obligations.CycleLooksAtOneWord :=
  ⟨fun _ hload h0 h1 => hload.fetch h0 h1, fun _ _ _ hw h => step_withProgram hw h⟩

/-! ### The normal halt (R101) -/

/-- At the end index the check for it comes before any fetch. -/
theorem State.event_of_end_index {s : State} (hr : s.rst = false) (hs : s.status = .running)
    (hl : lenOk s.progLen) (hp : s.pc.toInt = s.len) : s.event = .halt := by
  rw [State.event_of_running hr hs, State.runningEvent, if_neg (not_not_intro hl), if_pos hp]

theorem step_of_end_index {s : State} (hr : s.rst = false) (hs : s.status = .running)
    (hl : lenOk s.progLen) (hp : s.pc.toInt = s.len) : step s = .next s.haltNormal :=
  step_of_event (State.event_of_end_index hr hs hl hp)

/-- An instruction keeps the status or ends in Halted-Fatal. -/
theorem status_of_exec {i : Instr} {s t : State} (h : exec i s = .next t) :
    t.status = s.status ∨ t.status = .haltedFatal := by
  rcases exec_cases i s with ⟨hp, -⟩ | ⟨k, hp, hk, h0, h1, -⟩ | ⟨k, hp, hk, ht, -⟩
  · exact .inl (pc_of_exec_of_no_offset h hp).2
  · exact .inl (pc_of_exec_of_legal h hp hk h0 h1).2
  · exact .inr (pc_of_exec_of_illegal h hp hk ht).2

/-- A running block comes to Halted-Normal at the end index only: of the five ways a step comes
about, the others leave it running or Halted-Fatal. -/
theorem step_to_haltedNormal {s t : State} (hs : s.status = .running) (h : step s = .next t)
    (ht : t.status = .haltedNormal) : s.pc.toInt = s.len ∧ t = s.haltNormal := by
  rcases step_cases h with ⟨-, rfl⟩ | ⟨-, hhalted, -⟩ | ⟨-, -, -, hp, rfl⟩ |
    ⟨-, -, -, w, op, -, -, rfl⟩ | ⟨-, -, -, w, i, -, -, he⟩
  · simp at ht
  · exact absurd hs hhalted
  · exact ⟨hp, rfl⟩
  · simp at ht
  · have := status_of_exec he
    simp [ht, hs] at this

/-- Settles O26: the end index is checked before the fetch, an empty program is at its end index
after reset, and no other way of a step answers Halted-Normal. -/
theorem normalHaltAtTheEndIndex : Obligations.NormalHaltAtTheEndIndex := by
  refine ⟨fun s hr hs hl hp => ⟨step_of_end_index hr hs hl hp, ?_⟩, fun s hr hlen => ?_,
    fun s t hs h ht => ?_⟩
  · simp only [State.retireEvent, State.event_of_end_index hr hs hl hp]
  · refine ⟨s.resetRun, ({ s.resetRun with rst := false } : State).haltNormal,
      step_of_event (State.event_of_rst hr), step_of_end_index rfl rfl ?_ ?_, rfl⟩
    · simp [hlen]
    · simp [State.len, hlen]
  · obtain ⟨hp, rfl⟩ := step_to_haltedNormal hs h ht
    exact ⟨hp, hp⟩

end Sys2Proof.Machine
end

section
/-! PROOFS. ADDI (spec/41_addi.md R121): the sum of two words in both readings, and no trap. -/

namespace Sys2Proof.Machine

/-- The range of a word read as signed. -/
theorem toInt_range (v : Word) : -2147483648 ≤ v.toInt ∧ v.toInt ≤ 2147483647 := by
  have lower := BitVec.le_toInt v
  have upper := BitVec.toInt_lt (x := v)
  omega

/-- Read as signed, a sum of words is the exact sum wrapped: off by a multiple of 2^32. -/
theorem toInt_add_eq_exact_sum_add_multiple (a b : Word) :
    ∃ k : Int, (a + b).toInt = a.toInt + b.toInt + k * 4294967296 := by
  refine ⟨-(a.toInt + b.toInt).bdiv (2 ^ 32), ?_⟩
  rw [BitVec.toInt_add, Int.bmod_eq_self_sub_bdiv_mul]
  omega

/-- An instruction that leaves no offset raises nothing, so the fault cause stays. -/
theorem faultCause_of_exec_of_no_offset {i : Instr} {s t : State} (h : exec i s = .next t)
    (hp : s.pending i = none ∨ s.pending i = some 0) : t.faultCause = s.faultCause := by
  rw [exec_of_no_offset hp] at h
  obtain rfl := Host.Outcome.next.inj h
  simp

/-- Settles O10: the destination holds the sum of two words, which wraps in either reading, and an
ADDI leaves no offset for the resolver to reject. -/
theorem addiAddsModulo2Pow32 : Obligations.AddiAddsModulo2Pow32 := by
  intro rs rt imm s hrt
  obtain ⟨t, h, hsum⟩ := exec_addi_writes_sum rs rt imm s hrt
  have noOffset : s.pending (.addi rs rt imm) = none ∨ s.pending (.addi rs rt imm) = some 0 :=
    .inl (s.pending_addi rs rt imm)
  have unsignedSum :
      (t.readReg rt).toNat = ((s.readReg rs).toNat + (sext32 imm).toNat) % 4294967296 := by
    rw [hsum]
    exact BitVec.toNat_add _ _
  have signedSum : ∃ k : Int,
      (t.readReg rt).toInt = (s.readReg rs).toInt + sint16 imm + k * 4294967296 := by
    rw [hsum, ← toInt_sext32]
    exact toInt_add_eq_exact_sum_add_multiple _ _
  obtain ⟨lower, upper⟩ := toInt_range (t.readReg rt)
  exact ⟨t, h, unsignedSum, signedSum, lower, upper, (pc_of_exec_of_no_offset h noOffset).2,
    faultCause_of_exec_of_no_offset h noOffset⟩

end Sys2Proof.Machine
end

section
/-! PROOFS. Branches (spec/42_branch.md R133): the target of a taken branch as an exact sum. -/

namespace Sys2Proof.Machine

/-- The bound on LEN (R5), with LEN read as an index. -/
theorem State.len_le_of_lenOk {s : State} (h : lenOk s.progLen) : s.len ≤ 2147450880 :=
  Int.ofNat_le.2 h

/-- Only the zero immediate is the offset 0. -/
theorem sint16_ne_zero {imm : Imm16} (h : imm ≠ 0) : sint16 imm ≠ 0 :=
  fun h0 => h (BitVec.toInt_inj.1 h0)

/-- A branch whose condition holds leaves its signed immediate pending (R130, R131). -/
theorem State.pending_of_condition_holds {s : State} {i : Instr} {rs rt : RegIdx} {imm : Imm16}
    (h : (i = .beq rs rt imm ∧ s.readReg rs = s.readReg rt) ∨
      (i = .bne rs rt imm ∧ s.readReg rs ≠ s.readReg rt)) :
    s.pending i = some (sint16 imm) := by
  rcases h with ⟨rfl, heq⟩ | ⟨rfl, hne⟩
  · rw [State.pending_beq, if_pos heq]
  · rw [State.pending_bne, if_neg hne]

/-- A legal target is an index up to LEN, so the bound on LEN makes the word in pc the exact sum. -/
theorem pc_toInt_of_exec_of_legal {i : Instr} {s t : State} {k : Int} (h : exec i s = .next t)
    (hp : s.pending i = some k) (hk : k ≠ 0) (hl : lenOk s.progLen) (h0 : 0 ≤ s.pc.toInt + k)
    (h1 : s.pc.toInt + k ≤ s.len) : t.pc.toInt = s.pc.toInt + k := by
  have bound := State.len_le_of_lenOk hl
  rw [(pc_of_exec_of_legal h hp hk h0 h1).1]
  exact toInt_ofInt_of_fits (by omega) (by omega)

/-- The bound on LEN leaves room for every offset added to an index of the program (R133). -/
theorem target_fits_of_index {s : State} (imm : Imm16) (hl : lenOk s.progLen)
    (h0 : 0 ≤ s.pc.toInt) (h1 : s.pc.toInt < s.len) :
    -2147483648 ≤ s.pc.toInt + sint16 imm ∧ s.pc.toInt + sint16 imm ≤ 2147483647 := by
  have bound := State.len_le_of_lenOk hl
  have range := sint16_range imm
  omega

/-- Settles O18: the new pc is the exact sum, so the range of the immediate gives the reach and a
non-zero offset leaves the branch's own index. -/
theorem branchTargetIsOwnIndexPlusOffset : Obligations.BranchTargetIsOwnIndexPlusOffset := by
  refine ⟨fun rs rt imm s i htaken hl himm h0 h1 => ?_,
    fun imm s hl h0 h1 => target_fits_of_index imm hl h0 h1⟩
  have h := exec_eq_endCycle i s
  have hk := sint16_ne_zero himm
  have hpc := pc_toInt_of_exec_of_legal h (State.pending_of_condition_holds htaken) hk hl h0 h1
  obtain ⟨lower, upper⟩ := sint16_range imm
  refine ⟨_, h, hpc, by omega, by omega, fun hself => ?_⟩
  rw [hself] at hpc
  omega

end Sys2Proof.Machine
end

section
/-! PROOFS. Reset (spec/70_reset_and_hazards.md R181, R183): the state a reset cycle leaves. -/

namespace Sys2Proof.Machine

/-- With `rst` asserted a step answers the reset run, whatever the status was (R37, R180). -/
theorem step_of_rst {s : State} (h : s.rst = true) : step s = .next s.resetRun :=
  step_of_event (State.event_of_rst h)

/-- `State.reset` is itself a state a reset leaves. -/
theorem State.resetRun_reset : State.reset.resetRun = State.reset := rfl

/-- Settles O36: a reset cycle answers the reset run, which reads 0 and is Running without a look at
LEN; the normal halt of an empty program (R101) starts from that same state. -/
theorem resetLeavesZeroAndRunning : Obligations.ResetLeavesZeroAndRunning := by
  obtain ⟨-, emptyProgramHalts, -⟩ := normalHaltAtTheEndIndex
  have zeroAfterReset : State.reset.readReg 0 = 0 := by
    rw [← State.resetRun_reset, State.readReg_resetRun]
  refine ⟨zeroAfterReset, rfl, fun s hr => ?_⟩
  refine ⟨s.resetRun, step_of_rst hr, s.readReg_resetRun 0, s.resetRun_status, fun hlen => ?_⟩
  rw [State.resetRun_progLen] at hlen
  obtain ⟨t, u, ht, hu, hstatus⟩ := emptyProgramHalts s hr hlen
  obtain rfl : s.resetRun = t := Host.Outcome.next.inj ((step_of_rst hr).symm.trans ht)
  exact ⟨u, hu, hstatus⟩

end Sys2Proof.Machine
end

section
/-! PROOFS. Encoding (spec/30_encoding.md R70 to R80, spec/20_memory.md R54): decoder and encoder
undo each other, which words are rejected, the byte image, and the two readings of an immediate. -/

namespace Sys2Proof.Machine

/-! ### Decoding and encoding an instruction (R74 to R78) -/

/-- The fields of an instruction's word, said of all instructions at once. -/
theorem encodedFields (i : Instr) : Laws.EncodedFields.Statement i := by
  cases i with
  | addi rs rt imm => exact Laws.EncodedFields.addi rs rt imm
  | beq rs rt imm => exact Laws.EncodedFields.beq rs rt imm
  | bne rs rt imm => exact Laws.EncodedFields.bne rs rt imm

/-- Legal opcode numbers are distinct, so an instruction's opcode selects its operation. -/
theorem classify_encodeWith {m : OpcodeMap} (hm : m.wf) (i : Instr) :
    classify m (encodeWith m i) = .instr i := by
  obtain ⟨hbeqBne, hbeqAddi, hbneAddi, -, -⟩ := hm
  obtain ⟨hop, hrs, hrt, himm⟩ := encodedFields i m
  simp only [classify, hop, hrs, hrt, himm]
  cases i with
  | addi rs rt imm => exact if_pos rfl
  | beq rs rt imm => exact (if_neg hbeqAddi).trans (if_pos rfl)
  | bne rs rt imm => exact (if_neg hbneAddi).trans ((if_neg hbeqBne.symm).trans (if_pos rfl))

/-- The opcode numbers of this block (D1) are legal. -/
theorem opcodes_wf : Config.opcodes.wf := by decide

/-- Settles O1: the word of an instruction carries its opcode and operands, and legal opcode numbers
lead the selection back to its operation. -/
theorem decodeOfEncodeIsTheInstruction : Obligations.DecodeOfEncodeIsTheInstruction :=
  ⟨fun _ i hm => classify_encodeWith hm i, fun i => classify_encodeWith opcodes_wf i⟩

/-- A word is laid out from its own fields, and the selected operation has the word's opcode. -/
theorem encodeWith_of_classify {m : OpcodeMap} {w : Word} {i : Instr}
    (h : classify m w = .instr i) : encodeWith m i = w := by
  have hw := formatI_fields w
  rcases classify_cases m w with ⟨hop, e⟩ | ⟨-, hop, e⟩ | ⟨-, -, hop, e⟩ | ⟨-, -, -, e⟩
  · obtain rfl := Decoded.instr.inj (e.symm.trans h)
    rwa [hop] at hw
  · obtain rfl := Decoded.instr.inj (e.symm.trans h)
    rwa [hop] at hw
  · obtain rfl := Decoded.instr.inj (e.symm.trans h)
    rwa [hop] at hw
  · cases e.symm.trans h

/-- Settles O2: the decoded operands and the opcode of the selected operation are all four fields of
the word. -/
theorem encodeOfDecodeIsTheWord : Obligations.EncodeOfDecodeIsTheWord :=
  fun _ _ _ h => encodeWith_of_classify h

/-- When a word is rejected, and by which opcode (R78). -/
theorem classify_eq_unimplemented_iff (m : OpcodeMap) (w : Word) (op : Opcode) :
    classify m w = .unimplemented op ↔
      op = (fields w).opcode ∧ op ≠ Config.opcAddi ∧ op ≠ m.beq ∧ op ≠ m.bne := by
  constructor
  · intro h
    rcases classify_cases m w with ⟨-, e⟩ | ⟨-, -, e⟩ | ⟨-, -, -, e⟩ | ⟨haddi, hbeq, hbne, e⟩
    · cases e.symm.trans h
    · cases e.symm.trans h
    · cases e.symm.trans h
    · obtain rfl := Decoded.unimplemented.inj (e.symm.trans h)
      exact ⟨rfl, haddi, hbeq, hbne⟩
  · rintro ⟨rfl, haddi, hbeq, hbne⟩
    rw [classify, if_neg haddi, if_neg hbeq, if_neg hbne]

/-- Settles O4: the rejection is decided by the opcode field alone, and 61 values of it are left
over. -/
theorem rejectedWordsAreTheOtherOpcodes : Obligations.RejectedWordsAreTheOtherOpcodes := by
  refine ⟨classify_eq_unimplemented_iff, fun m v w op hvw h => ?_, by decide⟩
  rw [classify_eq_unimplemented_iff] at h ⊢
  rwa [← hvw]

/-- Settles O5: each word is decoded by evaluation. -/
theorem specWordsDecodeAsWritten : Obligations.SpecWordsDecodeAsWritten := by
  unfold Obligations.SpecWordsDecodeAsWritten
  decide

/-! ### The byte image of a word (R54) -/

/-- A word with the value of four bytes, most significant first, is the one they hold. -/
theorem wordOfBytes_eq {b0 b1 b2 b3 : Byte} {w : Word}
    (h : w.toNat = b0.toNat * 16777216 + b1.toNat * 65536 + b2.toNat * 256 + b3.toNat) :
    wordOfBytes Config.imageByteOrder b0 b1 b2 b3 = w :=
  BitVec.eq_of_toNat_eq ((wordOfBytes_toNat b0 b1 b2 b3).trans h.symm)

section DecodeBytes

variable {b0 b1 b2 b3 : Byte} {w : Word}

theorem decodeBytes_of_instr {i : Instr} (rest : List Byte)
    (hw : wordOfBytes Config.imageByteOrder b0 b1 b2 b3 = w) (h : decode w = .instr i) :
    decodeBytes (b0 :: b1 :: b2 :: b3 :: rest) = .ok (i, rest) := by
  simp only [decodeBytes, hw, h]

theorem decodeBytes_of_unimplemented {op : Opcode} (rest : List Byte)
    (hw : wordOfBytes Config.imageByteOrder b0 b1 b2 b3 = w) (h : decode w = .unimplemented op) :
    decodeBytes (b0 :: b1 :: b2 :: b3 :: rest) = .error (.unimplementedOpcode op) := by
  simp only [decodeBytes, hw, h]

end DecodeBytes

/-- Settles O6: the four bytes hold the word, and decoding them is decoding it. -/
theorem byteImageDecodesAsItsWord : Obligations.ByteImageDecodesAsItsWord :=
  fun _ _ _ _ rest _ h => ⟨fun _ hd => decodeBytes_of_instr rest (wordOfBytes_eq h) hd,
    fun _ hd => decodeBytes_of_unimplemented rest (wordOfBytes_eq h) hd⟩

/-- A word of full width is its own opcode-table word. -/
theorem tableWord_toNat (w : Word) : tableWord 32 w.toNat = w := by
  rw [tableWord, Nat.mod_eq_of_lt w.isLt, BitVec.ofNat_toNat, BitVec.setWidth_eq]

/-- The decoder's answer on an opcode-table word of full width is that of the word itself. -/
theorem decode_of_decodeTableWord {w : Word} {i : Instr}
    (h : decodeTableWord 32 w.toNat = some i) : decode w = .instr i := by
  have hbytes := wordOfBytes_byteOfWord Config.imageByteOrder w
  rw [decodeTableWord, if_pos (Nat.le_refl 32), tableWord_toNat, bytesOfWord] at h
  cases hd : decode w with
  | instr j =>
    rw [decodeBytes_of_instr [] hbytes hd] at h
    exact congrArg _ (Option.some.inj h)
  | unimplemented op =>
    rw [decodeBytes_of_unimplemented [] hbytes hd] at h
    cases h

/-! ### The immediate (R8, R73) and the assembly text (R81) -/

/-- R8: `sext_32` by cases on the sign: the word whose signed reading is `sint_16`. -/
theorem sext32_toNat (v : Imm16) :
    (sext32 v).toNat = if v.toNat < 32768 then v.toNat else v.toNat + 0xFFFF0000 := by
  have signedReading := toInt_sext32 v
  have immFits := v.isLt
  have wordFits := (sext32 v).isLt
  rw [sint16_eq_ite, BitVec.toInt_eq_toNat_cond] at signedReading
  split at signedReading <;> split at signedReading <;> split <;> omega

/-- Settles O7: both readings by cases, and the sign extension denotes the signed immediate. -/
theorem signExtensionKeepsTheNumber : Obligations.SignExtensionKeepsTheNumber :=
  fun v => ⟨sext32_toNat v, sint16_eq_ite v, toInt_sext32 v, sint16_range v⟩

/-- Settles O8: each instruction is written out by evaluation. -/
theorem assemblyNotation : Obligations.AssemblyNotation := by
  unfold Obligations.AssemblyNotation
  decide

end Sys2Proof.Machine
end

section
/-! PROOFS. One cycle (spec/40_execution_cycle.md R100, R155): the event of each kind of state and
the step it leads to, the inputs, and the stops by name. -/

namespace Sys2Proof.Machine

/-! ### The inputs (spec/10_state.md R37, R40) -/

section SameInputs

variable {s t u : State}

theorem State.sameInputs_of_eq
    (h : t.mem = s.mem ∧ t.progLen = s.progLen ∧ t.traceEn = s.traceEn ∧ t.rst = s.rst) :
    s.SameInputs t := by
  obtain ⟨hmem, hlen, htrace, hrst⟩ := h
  exact ⟨hmem, fun a => by rw [hmem], hlen, htrace, hrst⟩

theorem State.SameInputs.refl (s : State) : s.SameInputs s :=
  State.sameInputs_of_eq ⟨rfl, rfl, rfl, rfl⟩

theorem State.SameInputs.trans (hst : s.SameInputs t) (htu : t.SameInputs u) : s.SameInputs u := by
  obtain ⟨hmem, -, hlen, htrace, hrst⟩ := hst
  obtain ⟨hmem', -, hlen', htrace', hrst'⟩ := htu
  exact State.sameInputs_of_eq ⟨hmem'.trans hmem, hlen'.trans hlen, htrace'.trans htrace,
    hrst'.trans hrst⟩

theorem State.SameInputs.mem (h : s.SameInputs t) : t.mem = s.mem := h.1

theorem State.SameInputs.progLen (h : s.SameInputs t) : t.progLen = s.progLen := by
  obtain ⟨-, -, hlen, -⟩ := h
  exact hlen

theorem State.SameInputs.rst (h : s.SameInputs t) : t.rst = s.rst := by
  obtain ⟨-, -, -, -, hrst⟩ := h
  exact hrst

theorem State.SameInputs.len (h : s.SameInputs t) : t.len = s.len := by
  rw [State.len, State.len, h.progLen]

/-- The fetch looks at pc, PROG and LEN only. -/
theorem State.SameInputs.fetch (h : s.SameInputs t) (hpc : t.pc = s.pc) : t.fetch = s.fetch := by
  rw [State.fetch, State.fetch, hpc, h.len, h.mem]

theorem State.SameInputs.loaded (h : s.SameInputs t) (hload : s.Loaded) : t.Loaded := by
  rw [State.Loaded, h.progLen, h.mem]
  exact hload

theorem sameInputs_of_exec {i : Instr} (h : exec i s = .next t) : s.SameInputs t :=
  State.sameInputs_of_eq (exec_inputs h)

/-- No cycle changes an input (R50, R60). -/
theorem sameInputs_of_step (h : step s = .next t) : s.SameInputs t := by
  rcases step_cases h with ⟨-, rfl⟩ | ⟨-, -, rfl⟩ | ⟨-, -, -, -, rfl⟩ |
    ⟨-, -, -, w, op, -, -, rfl⟩ | ⟨-, -, -, w, i, -, -, he⟩
  · exact State.sameInputs_of_eq ⟨rfl, rfl, rfl, rfl⟩
  · exact State.SameInputs.refl _
  · exact State.sameInputs_of_eq ⟨rfl, rfl, rfl, rfl⟩
  · exact State.sameInputs_of_eq ⟨rfl, rfl, rfl, rfl⟩
  · exact sameInputs_of_exec he

end SameInputs

/-! ### The step of each event -/

section Events

variable {s : State} {w : Word} {op : Opcode} {i : Instr}

theorem State.Executes.event_of_instr (h : s.Executes w) (hd : decode w = .instr i) :
    s.event = .dispatch w i := by
  obtain ⟨hr, hs, hl, hf⟩ := h
  rw [State.event_of_fetch hr hs hl hf, dispatchEvent, hd]

theorem State.Executes.event_of_unimplemented (h : s.Executes w)
    (hd : decode w = .unimplemented op) : s.event = .unimplemented op := by
  obtain ⟨hr, hs, hl, hf⟩ := h
  rw [State.event_of_fetch hr hs hl hf, dispatchEvent, hd]

/-- Only a word that is about to execute and decodes is dispatched (R103). -/
theorem State.executes_of_event_dispatch (h : s.event = .dispatch w i) :
    s.Executes w ∧ decode w = .instr i := by
  cases hr : s.rst with
  | true => cases (State.event_of_rst hr).symm.trans h
  | false =>
    by_cases hs : s.status = .running
    · rw [State.event_of_running hr hs] at h
      rcases s.runningEvent_cases with ⟨-, e⟩ | ⟨-, -, e⟩ | ⟨-, f, -, e⟩ | ⟨-, v, op, -, -, e⟩ |
        ⟨hl, v, j, hf, hd, e⟩
      · cases e.symm.trans h
      · cases e.symm.trans h
      · cases e.symm.trans h
      · cases e.symm.trans h
      · cases e.symm.trans h
        exact ⟨⟨hr, hs, hl, hf⟩, hd⟩
    · cases (State.event_of_halted hr hs).symm.trans h

theorem State.Executes.step_of_instr (h : s.Executes w) (hd : decode w = .instr i) :
    step s = exec i s :=
  step_of_event (h.event_of_instr hd)

theorem State.Executes.step_of_unimplemented (h : s.Executes w)
    (hd : decode w = .unimplemented op) :
    step s = .next (s.raise (.unimplementedOpcode op s.pc)).nextFree :=
  step_of_event (h.event_of_unimplemented hd)

/-- A halted block keeps its whole state (R108). -/
theorem step_of_halted (hr : s.rst = false) (hs : s.status ≠ .running) : step s = .next s :=
  step_of_event (State.event_of_halted hr hs)

theorem State.len_nonneg (s : State) : 0 ≤ s.len := Int.natCast_nonneg s.progLen.toNat

/-- A fetch away from the end index that finds no word stops the step. -/
theorem step_of_fetch_error {f : Fault} (hr : s.rst = false) (hs : s.status = .running)
    (hl : lenOk s.progLen) (hp : s.pc.toInt ≠ s.len) (hf : s.fetch = .error f) :
    step s = .fault f := by
  have he : s.event = .fetchFault f := by
    rw [State.event_of_running hr hs, State.runningEvent, if_neg (not_not_intro hl), if_neg hp, hf]
  exact step_of_event he

/-- LEN is checked before anything else of a running block (U8). -/
theorem step_of_len_above_bound (hr : s.rst = false) (hs : s.status = .running)
    (hl : ¬ lenOk s.progLen) : step s = .refused .progLenAboveBound := by
  have he : s.event = .refuse := by
    rw [State.event_of_running hr hs, State.runningEvent, if_pos hl]
  exact step_of_event he

end Events

/-- Settles O21: the event of such a state is the dispatch of the instruction. -/
theorem stepRunsTheDecodedInstruction : Obligations.StepRunsTheDecodedInstruction :=
  fun _ _ _ h hd => h.step_of_instr hd

/-- Settles O34: the event of such a state is the refusal. -/
theorem lenAboveTheBoundIsRefused : Obligations.LenAboveTheBoundIsRefused :=
  fun _ hr hs hl => step_of_len_above_bound hr hs (Nat.not_le.2 hl)

/-- Settles O35: a step faults as its fetch does, and the fetch has two reasons. -/
theorem fetchStopsOnlyOutsideALoadedProgram : Obligations.FetchStopsOnlyOutsideALoadedProgram := by
  refine ⟨fun s hr hs hl => ⟨fun hp => ?_, fun h0 h1 hmiss => ?_⟩, fun s f h => ?_⟩
  · have hlen := s.len_nonneg
    exact step_of_fetch_error hr hs hl (by omega) (State.fetch_eq_error.2 (.inl ⟨rfl, by omega⟩))
  · exact step_of_fetch_error hr hs hl (by omega)
      (State.fetch_eq_error.2 (.inr ⟨rfl, ⟨h0, h1⟩, hmiss⟩))
  · obtain ⟨hr, hs, hl, hp, hf⟩ := step_fault_cases h
    refine ⟨hr, hs, hl, ?_⟩
    rcases State.fetch_eq_error.1 hf with ⟨rfl, hout⟩ | ⟨rfl, ⟨h0, h1⟩, hmiss⟩
    · exact .inl ⟨rfl, by omega⟩
    · exact .inr ⟨rfl, h0, h1, hmiss⟩

end Sys2Proof.Machine
end

section
/-! PROOFS. Whole-machine invariants (spec/40_execution_cycle.md R109, R110): a reset starts in the
invariant, every step keeps it, and a loaded block in it always steps. -/

namespace Sys2Proof.Machine

/-! ### What the invariant needs of a next state -/

section Invariant

variable {s t : State}

theorem State.statusCoherent_of_running (hs : t.status = .running) (hc : t.faultCause = .none) :
    t.StatusCoherent := by
  rw [State.StatusCoherent, hs]
  exact hc

theorem State.statusCoherent_of_haltedNormal (hs : t.status = .haltedNormal)
    (hp : t.pc.toInt = t.len) (hc : t.faultCause = .none) : t.StatusCoherent := by
  rw [State.StatusCoherent, hs]
  exact ⟨hp, hc⟩

theorem State.statusCoherent_of_haltedFatal (hs : t.status = .haltedFatal)
    (h : (t.faultCause = .unimplementedOpcode ∧ t.UnimplementedHalt) ∨
      (t.faultCause = .illegalBranchTarget ∧ t.IllegalBranchHalt)) : t.StatusCoherent := by
  rw [State.StatusCoherent, hs]
  exact h

theorem State.Inv.faultCause_of_running (h : s.Inv) (hs : s.status = .running) :
    s.faultCause = .none := by
  have coherent := h.coherent
  rwa [State.StatusCoherent, hs] at coherent

/-- The inputs carry their part of the invariant over; the rest is the next state's own. -/
theorem State.Inv.of_sameInputs (h : s.Inv) (hin : s.SameInputs t) (h0 : t.readReg 0 = 0)
    (hlow : 0 ≤ t.pc.toInt) (hhigh : t.pc.toInt ≤ s.len) (hc : t.StatusCoherent) : t.Inv where
  zero := h0
  lenOk := by rw [hin.progLen]; exact h.lenOk
  pcLow := hlow
  pcHigh := by rw [hin.len]; exact hhigh
  memWf := by rw [hin.mem]; exact h.memWf
  coherent := hc

/-- With register 0 at 0, clearing it changes nothing. -/
theorem State.clearX0_of_zero (h0 : s.readReg 0 = 0) : s.clearX0 = s := by
  have hx : s.clearX0.x = s.x := State.x_ext fun r => by
    rw [State.readReg_clearX0]
    split
    · next hr => rw [hr, h0]
    · rfl
  calc s.clearX0 = { s with x := s.clearX0.x } := rfl
    _ = s := by rw [hx]

/-- What a branch leaves pending does not depend on the fault record. -/
theorem State.pending_raise_nextFree (s : State) (f : FatalInfo) (i : Instr) :
    (s.raise f).nextFree.pending i = s.pending i := by
  cases f <;> cases i <;> rfl

end Invariant

/-! ### Every step keeps the invariant -/

section StepKeepsInv

variable {s t : State} {w : Word}

theorem State.inv_resetRun (hl : lenOk s.progLen) (hm : s.mem.wf) : s.resetRun.Inv where
  zero := s.readReg_resetRun 0
  lenOk := hl
  pcLow := Int.le_refl 0
  pcHigh := s.len_nonneg
  memWf := hm
  coherent := State.statusCoherent_of_running rfl rfl

theorem State.Inv.haltNormal (h : s.Inv) (hs : s.status = .running) (hp : s.pc.toInt = s.len) :
    s.haltNormal.Inv :=
  h.of_sameInputs (State.sameInputs_of_eq ⟨rfl, rfl, rfl, rfl⟩) h.zero h.pcLow h.pcHigh
    (State.statusCoherent_of_haltedNormal rfl hp (h.faultCause_of_running hs))

/-- The word at pc stays the rejected one, and the record names its opcode and its index. -/
theorem State.Inv.raise_unimplemented {op : Opcode} (h : s.Inv) (hf : s.fetch = .ok w)
    (hd : decode w = .unimplemented op) :
    (s.raise (.unimplementedOpcode op s.pc)).nextFree.Inv := by
  have hop : op = (fields w).opcode := ((classify_eq_unimplemented_iff _ _ _).1 hd).1
  exact h.of_sameInputs (State.sameInputs_of_eq ⟨rfl, rfl, rfl, rfl⟩) h.zero h.pcLow h.pcHigh
    (State.statusCoherent_of_haltedFatal rfl (.inl ⟨rfl, w, hf, hd, hop, rfl⟩))

/-- The word at pc stays the branch, the registers stay as they were, and the bound on LEN makes the
recorded target the exact sum. -/
theorem State.Inv.raise_illegal {i : Instr} {k : Int} (h : s.Inv) (hf : s.fetch = .ok w)
    (hd : decode w = .instr i) (hp : s.pending i = some k) (hk : k ≠ 0)
    (ht : s.pc.toInt + k < 0 ∨ s.pc.toInt + k > s.len) :
    (s.raise (.illegalBranchTarget (s.pc.toInt + k))).nextFree.Inv := by
  obtain ⟨h0, h1⟩ := (State.fetch_eq_ok.1 hf).1
  obtain ⟨lower, upper⟩ := target_fits_of_index i.imm h.lenOk h0 h1
  rw [← State.pending_eq_imm hp] at lower upper
  have exactTarget := toInt_ofInt_of_fits lower (by omega)
  exact h.of_sameInputs (State.sameInputs_of_eq ⟨rfl, rfl, rfl, rfl⟩) h.zero h.pcLow h.pcHigh
    (State.statusCoherent_of_haltedFatal rfl (.inr ⟨rfl, w, i, k, hf, hd,
      (s.pending_raise_nextFree _ i).trans hp, hk, exactTarget, ht⟩))

/-- An instruction keeps the invariant: pc goes one on from an index below LEN, or to a legal
target, or stays with the record of its illegal one. -/
theorem State.Inv.of_exec {i : Instr} (h : s.Inv) (hs : s.status = .running) (hf : s.fetch = .ok w)
    (hd : decode w = .instr i) (he : exec i s = .next t) : t.Inv := by
  have hin := sameInputs_of_exec he
  have hzero : t.readReg 0 = 0 := by rw [readReg_of_exec he, if_pos rfl]
  have bound := State.len_le_of_lenOk h.lenOk
  obtain ⟨h0, h1⟩ := (State.fetch_eq_ok.1 hf).1
  rcases exec_cases i s with ⟨hp, e⟩ | ⟨k, hp, hk, hlow, hhigh, e⟩ | ⟨k, hp, hk, ht, e⟩
  · obtain ⟨hpc, hstatus⟩ := pc_of_exec_of_no_offset he hp
    have hcause := faultCause_of_exec_of_no_offset he hp
    have hpcInt : t.pc.toInt = s.pc.toInt + 1 := by rw [hpc, toInt_add_one (by omega)]
    exact h.of_sameInputs hin hzero (by omega) (by omega) (State.statusCoherent_of_running
      (hstatus.trans hs) (hcause.trans (h.faultCause_of_running hs)))
  · have hstatus := (pc_of_exec_of_legal he hp hk hlow hhigh).2
    have hpcInt := pc_toInt_of_exec_of_legal he hp hk h.lenOk hlow hhigh
    have hcause : t.faultCause = s.faultCause := by
      obtain rfl := Host.Outcome.next.inj (e.symm.trans he)
      rfl
    exact h.of_sameInputs hin hzero (by omega) (by omega) (State.statusCoherent_of_running
      (hstatus.trans hs) (hcause.trans (h.faultCause_of_running hs)))
  · obtain rfl := Host.Outcome.next.inj (e.symm.trans he)
    rw [State.clearX0_of_zero h.zero]
    exact h.raise_illegal hf hd hp hk ht

theorem State.Inv.of_step (h : s.Inv) (hstep : step s = .next t) : t.Inv := by
  rcases step_cases hstep with ⟨-, rfl⟩ | ⟨-, -, rfl⟩ | ⟨-, hs, -, hp, rfl⟩ |
    ⟨-, -, -, w, op, hf, hd, rfl⟩ | ⟨-, hs, -, w, i, hf, hd, he⟩
  · exact State.inv_resetRun h.lenOk h.memWf
  · exact h
  · exact h.haltNormal hs hp
  · exact h.raise_unimplemented hf hd
  · exact h.of_exec hs hf hd he

/-- In the invariant LEN is within its bound, and the fetch of a loaded program finds a word at
every index but the end index: no event of a fault or a refusal is due. -/
theorem State.Inv.step_completes (h : s.Inv) (hload : s.Loaded) : ∃ t, step s = .next t := by
  cases hr : s.rst with
  | true => exact ⟨_, step_of_rst hr⟩
  | false =>
    by_cases hs : s.status = .running
    · by_cases hp : s.pc.toInt = s.len
      · exact ⟨_, step_of_end_index hr hs h.lenOk hp⟩
      · obtain ⟨w, -, hf⟩ := hload.fetch h.pcLow (lt_of_le_of_ne h.pcHigh hp)
        have hexec : s.Executes w := ⟨hr, hs, h.lenOk, hf⟩
        cases hd : decode w with
        | instr i => exact ⟨_, (hexec.step_of_instr hd).trans (exec_eq_endCycle i s)⟩
        | unimplemented op => exact ⟨_, hexec.step_of_unimplemented hd⟩
    · exact ⟨_, step_of_halted hr hs⟩

end StepKeepsInv

/-- Settles O44: each of the five ways a step comes about keeps the invariant. -/
theorem stepKeepsTheInvariant : Obligations.StepKeepsTheInvariant :=
  fun _ _ h hstep => h.of_step hstep

/-- Settles O45: by induction on the number of cycles; the first one completes, keeps the invariant
and leaves the program loaded. -/
theorem loadedRunNeverStops : Obligations.LoadedRunNeverStops := by
  intro n
  induction n with
  | zero => exact fun s h hload => ⟨s, rfl, h, hload⟩
  | succ n ih =>
    intro s h hload
    obtain ⟨t, hstep⟩ := h.step_completes hload
    rw [runFrom_succ n s t hstep]
    exact ih t (h.of_step hstep) ((sameInputs_of_step hstep).loaded hload)

/-- Settles O43: the step answers the reset run, which is in the invariant. -/
theorem everyRunStartsInTheInvariant : Obligations.EveryRunStartsInTheInvariant :=
  fun _ hr hl hm => ⟨_, step_of_rst hr, State.inv_resetRun hl hm⟩

/-- Settles O42: the state after reset is a reset run with nothing loaded. -/
theorem resetStateMeetsTheInvariant : Obligations.ResetStateMeetsTheInvariant :=
  State.inv_resetRun (s := State.reset) (Nat.zero_le _) List.Pairwise.nil

end Sys2Proof.Machine
end

section
/-! PROOFS. The effect of one instruction (spec/41_addi.md, spec/42_branch.md): what ADDI and the
branches write, where they go, and the illegal target. -/

namespace Sys2Proof.Machine

/-! ### The fault record across one instruction (R33) -/

section Record

variable {s t : State} {i : Instr}

theorem State.sameRecord_handled (s : State) (i : Instr) : s.SameRecord (s.handled i) := by
  cases i with
  | addi rs rt imm => exact ⟨rfl, rfl, rfl, rfl⟩
  | beq rs rt imm => exact ⟨rfl, rfl, rfl, rfl⟩
  | bne rs rt imm => exact ⟨rfl, rfl, rfl, rfl⟩

theorem sameRecord_of_exec_of_no_offset (h : exec i s = .next t)
    (hp : s.pending i = none ∨ s.pending i = some 0) : s.SameRecord t := by
  rw [exec_of_no_offset hp] at h
  obtain rfl := Host.Outcome.next.inj h
  exact s.sameRecord_handled i

theorem sameRecord_of_exec_of_legal {k : Int} (h : exec i s = .next t)
    (hp : s.pending i = some k) (hk : k ≠ 0) (h0 : 0 ≤ s.pc.toInt + k)
    (h1 : s.pc.toInt + k ≤ s.len) : s.SameRecord t := by
  rw [exec_of_legal hp hk h0 h1] at h
  obtain rfl := Host.Outcome.next.inj h
  exact ⟨rfl, rfl, rfl, rfl⟩

/-- A running block comes to Halted-Fatal in an instruction by an illegal target only. -/
theorem exec_to_haltedFatal (hs : s.status = .running) (h : exec i s = .next t)
    (ht : t.status = .haltedFatal) :
    ∃ k, s.pending i = some k ∧ k ≠ 0 ∧ (s.pc.toInt + k < 0 ∨ s.pc.toInt + k > s.len) ∧
      t = (s.clearX0.raise (.illegalBranchTarget (s.pc.toInt + k))).nextFree := by
  rcases exec_cases i s with ⟨hp, -⟩ | ⟨k, hp, hk, h0, h1, -⟩ | ⟨k, hp, hk, hout, e⟩
  · simp [(pc_of_exec_of_no_offset h hp).2, hs] at ht
  · simp [(pc_of_exec_of_legal h hp hk h0 h1).2, hs] at ht
  · exact ⟨k, hp, hk, hout, Host.Outcome.next.inj (h.symm.trans e)⟩

end Record

/-! ### ADDI (R120) -/

/-- Settles O9: the handler writes one register, the end of the cycle clears register 0, and without
an offset pc goes one on. -/
theorem addiResultAndFrame : Obligations.AddiResultAndFrame := by
  intro rs rt imm s
  obtain ⟨t, h⟩ : ∃ t, exec (.addi rs rt imm) s = .next t := ⟨_, exec_eq_endCycle _ _⟩
  have noOffset : s.pending (.addi rs rt imm) = none ∨ s.pending (.addi rs rt imm) = some 0 :=
    .inl (s.pending_addi rs rt imm)
  obtain ⟨hpc, hstatus⟩ := pc_of_exec_of_no_offset h noOffset
  refine ⟨t, h, fun hrt => ?_, fun r hne hr => ?_, ?_, hpc, hstatus,
    sameRecord_of_exec_of_no_offset h noOffset, sameInputs_of_exec h⟩
  · rw [readReg_of_exec h, if_neg hrt, State.readReg_handled, if_pos ⟨rfl, rfl⟩]
    rfl
  · rw [readReg_of_exec h, if_neg hr, State.readReg_handled, if_neg fun hdest => hne hdest.2]
  · rw [readReg_of_exec h, if_pos rfl]

/-- A write to register 0 is lost in the clearing (R23). -/
theorem State.clearX0_writeReg_zero (s : State) (v : Word) :
    (s.writeReg 0 v).clearX0 = s.clearX0 := by
  simp [State.clearX0, State.writeReg]

/-- A write to another register leaves register 0 at 0, so there is nothing to clear. -/
theorem State.clearX0_writeReg_of_ne_zero {s : State} (h0 : s.readReg 0 = 0) {r : RegIdx}
    (hr : r ≠ 0) (v : Word) : (s.writeReg r v).clearX0 = s.writeReg r v :=
  State.clearX0_of_zero (by rw [State.readReg_writeReg, if_neg hr, h0])

/-- Settles O12: clearing undoes a write to register 0 and does nothing after any other write. -/
theorem writeThenClearEqualsSuppressedWrite : Obligations.WriteThenClearEqualsSuppressedWrite := by
  intro rs rt imm s h0
  have cleared : (s.writeReg rt (s.addend rs imm)).clearX0 =
      if rt = 0 then s else s.writeReg rt (s.readReg rs + sext32 imm) := by
    split
    · next hrt => rw [hrt, State.clearX0_writeReg_zero, State.clearX0_of_zero h0]
    · next hrt => rw [State.clearX0_writeReg_of_ne_zero h0 hrt, State.addend]
  rw [exec_of_no_offset (.inl (s.pending_addi rs rt imm)), State.handled, cleared]

/-- Settles O13: the second instruction reads the state the first one left. -/
theorem nextInstructionSeesTheNewValue : Obligations.NextInstructionSeesTheNewValue := by
  intro rs rt rd a b s hrt hrd
  obtain ⟨t, ht, htsum⟩ := exec_addi_writes_sum rs rt a s hrt
  obtain ⟨u, hu, husum⟩ := exec_addi_writes_sum rt rd b t hrd
  refine ⟨t, u, ht, hu, by rw [husum, htsum], ?_, ?_⟩
  · rw [State.pending_beq, if_pos rfl]
  · rw [State.pending_bne, if_pos rfl]

/-! ### BEQ and BNE (R130 to R135) -/

/-- The frame of a branch that completes: no register but 0 written, and 0 cleared; status, fault
record and inputs as before. -/
def State.BranchFrame (s t : State) : Prop :=
  (∀ r, r ≠ 0 → t.readReg r = s.readReg r) ∧ t.readReg 0 = 0 ∧
    t.status = s.status ∧ s.SameRecord t ∧ s.SameInputs t

section Branch

variable {s t : State} {i : Instr} {rs rt : RegIdx} {imm : Imm16}

/-- A branch without an offset, or with offset 0, goes one on (R135). -/
theorem branch_goes_on (hi : i.kind ≠ .addi)
    (hp : s.pending i = none ∨ s.pending i = some 0) :
    ∃ t, exec i s = .next t ∧ t.pc = s.pc + 1 ∧ s.BranchFrame t := by
  have h := exec_eq_endCycle i s
  obtain ⟨hpc, hstatus⟩ := pc_of_exec_of_no_offset h hp
  refine ⟨_, h, hpc, fun r hr => ?_, ?_, hstatus, sameRecord_of_exec_of_no_offset h hp,
    sameInputs_of_exec h⟩
  · rw [readReg_of_exec h, if_neg hr, State.readReg_handled, if_neg fun hdest => hi hdest.1]
  · rw [readReg_of_exec h, if_pos rfl]

/-- An offset to a legal target takes a branch there (R134). -/
theorem branch_goes_to_target {k : Int} (hp : s.pending i = some k) (hk : k ≠ 0)
    (h0 : 0 ≤ s.pc.toInt + k) (h1 : s.pc.toInt + k ≤ s.len) :
    ∃ t, exec i s = .next t ∧ t.pc = BitVec.ofInt 32 (s.pc.toInt + k) ∧ s.BranchFrame t := by
  have h := exec_eq_endCycle i s
  obtain ⟨hpc, hstatus⟩ := pc_of_exec_of_legal h hp hk h0 h1
  refine ⟨_, h, hpc, fun r hr => readReg_of_exec_of_pending h hp hr, ?_, hstatus,
    sameRecord_of_exec_of_legal h hp hk h0 h1, sameInputs_of_exec h⟩
  rw [readReg_of_exec h, if_pos rfl]

/-- Where BEQ leaves no offset to resolve: its condition fails, or its offset is 0. -/
theorem State.pending_beq_no_offset (h : s.readReg rs ≠ s.readReg rt ∨ imm = 0) :
    s.pending (.beq rs rt imm) = none ∨ s.pending (.beq rs rt imm) = some 0 := by
  rw [State.pending_beq]
  split
  · next heq => exact .inr (by rw [h.resolve_left (not_not_intro heq)]; rfl)
  · exact .inl rfl

/-- Where BNE leaves no offset to resolve. -/
theorem State.pending_bne_no_offset (h : s.readReg rs = s.readReg rt ∨ imm = 0) :
    s.pending (.bne rs rt imm) = none ∨ s.pending (.bne rs rt imm) = some 0 := by
  rw [State.pending_bne]
  split
  · exact .inl rfl
  · next hne => exact .inr (by rw [h.resolve_left hne]; rfl)

theorem beq_goes_on (h : s.readReg rs ≠ s.readReg rt ∨ imm = 0) :
    ∃ t, exec (.beq rs rt imm) s = .next t ∧ t.pc = s.pc + 1 ∧ s.BranchFrame t :=
  branch_goes_on nofun (State.pending_beq_no_offset h)

theorem bne_goes_on (h : s.readReg rs = s.readReg rt ∨ imm = 0) :
    ∃ t, exec (.bne rs rt imm) s = .next t ∧ t.pc = s.pc + 1 ∧ s.BranchFrame t :=
  branch_goes_on nofun (State.pending_bne_no_offset h)

/-- A branch whose condition holds, with a non-zero offset to a legal target, goes there. -/
theorem taken_branch_goes_to_target
    (htaken : (i = .beq rs rt imm ∧ s.readReg rs = s.readReg rt) ∨
      (i = .bne rs rt imm ∧ s.readReg rs ≠ s.readReg rt))
    (himm : imm ≠ 0) (h0 : 0 ≤ s.pc.toInt + sint16 imm) (h1 : s.pc.toInt + sint16 imm ≤ s.len) :
    ∃ t, exec i s = .next t ∧ t.pc = BitVec.ofInt 32 (s.pc.toInt + sint16 imm) ∧
      s.BranchFrame t :=
  branch_goes_to_target (State.pending_of_condition_holds htaken) (sint16_ne_zero himm) h0 h1

end Branch

/-- Settles O14: what BEQ leaves pending decides between the two ways it completes. -/
theorem beqResultAndFrame : Obligations.BeqResultAndFrame :=
  fun _ _ _ _ => ⟨beq_goes_on,
    fun heq himm h0 h1 => taken_branch_goes_to_target (.inl ⟨rfl, heq⟩) himm h0 h1⟩

/-- Settles O15: as BEQ, with the condition negated. -/
theorem bneResultAndFrame : Obligations.BneResultAndFrame :=
  fun _ _ _ _ => ⟨bne_goes_on,
    fun hne himm h0 h1 => taken_branch_goes_to_target (.inr ⟨rfl, hne⟩) himm h0 h1⟩

/-- Settles O16: the resolver rejects the offset the branch leaves and raises in a state whose
registers are those the branch compared, register 0 cleared. -/
theorem takenBranchOutOfRangeIsFatal : Obligations.TakenBranchOutOfRangeIsFatal := by
  intro rs rt imm s i htaken himm hout
  have hp := State.pending_of_condition_holds htaken
  have h := exec_of_illegal hp (sint16_ne_zero himm) hout
  refine ⟨_, h, rfl, rfl, rfl, rfl, fun r hr => readReg_of_exec_of_pending h hp hr, ?_,
    sameInputs_of_exec h⟩
  rw [readReg_of_exec h, if_pos rfl]

/-- Settles O17: the bound on LEN makes the recorded word the exact sum, and the range of the
immediate then bounds how far it lies outside 0 to LEN. -/
theorem rejectedTargetIsRecordedExactly : Obligations.RejectedTargetIsRecordedExactly := by
  intro i s t hinv hpc hs h hfatal
  obtain ⟨k, hp, -, hout, rfl⟩ := exec_to_haltedFatal hs h hfatal
  obtain rfl := State.pending_eq_imm hp
  have hlow := hinv.pcLow
  obtain ⟨lower, upper⟩ := target_fits_of_index i.imm hinv.lenOk hlow hpc
  have range := sint16_range i.imm
  have exactTarget := toInt_ofInt_of_fits lower (by omega)
  rw [State.nextFree_faultTarget, State.raiseIllegal_faultTarget, exactTarget]
  omega

/-- Settles O19: the registers are equal exactly when all their bits agree, and one of BEQ and BNE
has its condition. -/
theorem exactlyOneOfBeqAndBneIsTaken : Obligations.ExactlyOneOfBeqAndBneIsTaken := by
  intro rs rt imm s himm h0 h1
  by_cases heq : s.readReg rs = s.readReg rt
  · obtain ⟨t, ht, htpc, -⟩ := taken_branch_goes_to_target (.inl ⟨rfl, heq⟩) himm h0 h1
    obtain ⟨u, hu, hupc, -⟩ := bne_goes_on (imm := imm) (.inl heq)
    refine ⟨t, u, ht, hu, fun _ => ⟨htpc, hupc⟩, ?_⟩
    rintro ⟨j, -, hbit⟩
    exact absurd (by rw [heq]) hbit
  · obtain ⟨t, ht, htpc, -⟩ := beq_goes_on (imm := imm) (.inl heq)
    obtain ⟨u, hu, hupc, -⟩ := taken_branch_goes_to_target (.inr ⟨rfl, heq⟩) himm h0 h1
    exact ⟨t, u, ht, hu, fun hbits => absurd (BitVec.eq_of_getLsbD_eq hbits) heq,
      fun _ => ⟨htpc, hupc⟩⟩

/-- The next index is another word, also where it wraps. -/
theorem add_one_ne_self (p : Word) : p + 1 ≠ p := add_eq_left.not.2 (by decide)

/-- Settles O20: offset 0 resolves to pc + 1; otherwise pc moves by one, by a non-zero offset that
the bound on LEN keeps exact, or the block is no longer running. -/
theorem noInstructionLoopsOnItself : Obligations.NoInstructionLoopsOnItself := by
  refine ⟨fun rs rt s => ?_, fun i s t hl hs h ht => ?_⟩
  · obtain ⟨t, ht, htpc, -, -, htstatus, -⟩ := beq_goes_on (s := s) (rs := rs) (rt := rt) (.inr rfl)
    obtain ⟨u, hu, hupc, -, -, hustatus, -⟩ := bne_goes_on (s := s) (rs := rs) (rt := rt) (.inr rfl)
    exact ⟨t, u, ht, hu, htpc, hupc, htstatus, hustatus⟩
  · rcases exec_cases i s with ⟨hp, -⟩ | ⟨k, hp, hk, h0, h1, -⟩ | ⟨k, hp, hk, hout, -⟩
    · rw [(pc_of_exec_of_no_offset h hp).1]
      exact add_one_ne_self s.pc
    · intro hself
      have hpc := pc_toInt_of_exec_of_legal h hp hk hl h0 h1
      rw [hself] at hpc
      omega
    · simp [(pc_of_exec_of_illegal h hp hk hout).2] at ht

/-- Settles O25: a step of a decoded word is its instruction, and at a boundary of a run the bound
on LEN makes both moves of pc exact. -/
theorem pcFollowsTheTable : Obligations.PcFollowsTheTable := by
  intro s t w hinv hexec hstep
  refine ⟨fun op hd => ?_, fun i hd => ?_⟩
  · rw [hexec.step_of_unimplemented hd] at hstep
    obtain rfl := Host.Outcome.next.inj hstep
    rfl
  · have h := (hexec.step_of_instr hd).symm.trans hstep
    have bound := State.len_le_of_lenOk hinv.lenOk
    have hhigh := hinv.pcHigh
    refine ⟨fun hp => ?_, fun k hp hk => ⟨fun ⟨h0, h1⟩ => ?_, fun hout => ?_⟩⟩
    · rw [(pc_of_exec_of_no_offset h hp).1, toInt_add_one (by omega)]
    · exact pc_toInt_of_exec_of_legal h hp hk hinv.lenOk h0 h1
    · exact (pc_of_exec_of_illegal h hp hk hout).1

end Sys2Proof.Machine
end

section
/-! PROOFS. Outputs (spec/10_state.md R32, R37 to R41): the output codes, when a record is presented
and what it holds, and that tracing has no effect. -/

namespace Sys2Proof.Machine

/-- Settles O41: each code is read off its definition, value by value. -/
theorem outputCodes : Obligations.OutputCodes := by
  refine ⟨rfl, rfl, rfl, fun r => ?_, rfl, rfl, rfl, fun _ => rfl⟩
  cases r with
  | running => decide
  | haltedNormal => decide
  | haltedFatal => decide

/-! ### The retire event (R40, R41) -/

section Retire

variable {s : State} {w : Word} {i : Instr}

/-- A record is presented exactly for a dispatched instruction while `trace_en` is 1. -/
theorem State.retireEvent_eq_some_iff {e : RetireEvent} :
    s.retireEvent = some e ↔
      s.traceEn = true ∧ ∃ w i, s.event = .dispatch w i ∧ e = s.retireRecord w i := by
  cases he : s.event with
  | dispatch w i =>
    simp only [State.retireEvent, he, Option.ite_none_right_eq_some, Option.some.injEq,
      Event.dispatch.injEq]
    constructor
    · rintro ⟨htrace, rfl⟩
      exact ⟨htrace, w, i, ⟨rfl, rfl⟩, rfl⟩
    · rintro ⟨htrace, _, _, ⟨rfl, rfl⟩, rfl⟩
      exact ⟨htrace, rfl⟩
  | reset => simp [State.retireEvent, he]
  | frozen => simp [State.retireEvent, he]
  | refuse => simp [State.retireEvent, he]
  | halt => simp [State.retireEvent, he]
  | fetchFault f => simp [State.retireEvent, he]
  | unimplemented op => simp [State.retireEvent, he]

theorem State.retireEvent_eq_none (h : ∀ w i, s.event ≠ .dispatch w i) : s.retireEvent = none := by
  refine Option.eq_none_iff_forall_ne_some.2 fun e he => ?_
  obtain ⟨-, w, i, hd, -⟩ := State.retireEvent_eq_some_iff.1 he
  exact h w i hd

/-- A rejected word retires nothing (R151). -/
theorem State.Executes.retireEvent_of_unimplemented {op : Opcode} (h : s.Executes w)
    (hd : decode w = .unimplemented op) : s.retireEvent = none :=
  State.retireEvent_eq_none fun _ _ he => by cases (h.event_of_unimplemented hd).symm.trans he

/-- A halted block retires nothing (R108). -/
theorem State.retireEvent_of_halted (hr : s.rst = false) (hs : s.status ≠ .running) :
    s.retireEvent = none :=
  State.retireEvent_eq_none fun _ _ he => by cases (State.event_of_halted hr hs).symm.trans he

/-! #### The fields that depend on the operation -/

/-- `ret_value` is what the destination of an ADDI then holds; register 0 is unspecified (U4). -/
theorem State.retireValue_addi {t : State} {rs rt : RegIdx} {imm : Imm16} (hrt : rt ≠ 0)
    (h : exec (.addi rs rt imm) s = .next t) :
    s.retireValue (.addi rs rt imm) = some (t.readReg rt) := by
  rw [State.retireValue, State.retValue, if_neg hrt, readReg_of_exec h, if_neg hrt,
    State.readReg_handled, if_pos ⟨rfl, rfl⟩]
  rfl

theorem State.taken_beq (s : State) (rs rt : RegIdx) (imm : Imm16) :
    s.taken (.beq rs rt imm) = some (decide (s.readReg rs = s.readReg rt)) := by
  rw [State.taken, State.regsEqual, beq_eq_decide]

theorem State.taken_bne (s : State) (rs rt : RegIdx) (imm : Imm16) :
    s.taken (.bne rs rt imm) = some (decide (s.readReg rs ≠ s.readReg rt)) := by
  rw [State.taken, State.regsEqual, beq_eq_decide, decide_not]

/-- `ret_target` is the sum a taken branch then resolves, legal or not. -/
theorem State.retireTarget_beq (s : State) (rs rt : RegIdx) (imm : Imm16) :
    (s.pending (.beq rs rt imm)).map s.target =
      if s.readReg rs = s.readReg rt then some (s.pc.toInt + sint16 imm) else none := by
  rw [State.pending_beq]
  split
  · rfl
  · rfl

theorem State.retireTarget_bne (s : State) (rs rt : RegIdx) (imm : Imm16) :
    (s.pending (.bne rs rt imm)).map s.target =
      if s.readReg rs ≠ s.readReg rt then some (s.pc.toInt + sint16 imm) else none := by
  rw [State.pending_bne, ite_not]
  split
  · rfl
  · rfl

end Retire

/-- Settles O39: the record of the dispatched instruction, operation by operation. -/
theorem retireEventOfADispatchedInstruction : Obligations.RetireEventOfADispatchedInstruction := by
  intro s w i hexec hd htrace
  have hevent : s.retireEvent = some (s.retireRecord w i) :=
    State.retireEvent_eq_some_iff.2 ⟨htrace, w, i, hexec.event_of_instr hd, rfl⟩
  obtain ⟨t, h⟩ : ∃ t, exec i s = .next t := ⟨_, exec_eq_endCycle i s⟩
  refine ⟨_, t, hevent, (hexec.step_of_instr hd).trans h, rfl, rfl, rfl, rfl, rfl, rfl, ?_⟩
  cases i with
  | addi rs rt imm =>
    exact ⟨fun _ => ⟨fun hrt => State.retireValue_addi hrt h, nofun, rfl, rfl⟩, nofun, nofun⟩
  | beq rs rt imm =>
    exact ⟨nofun, fun _ => ⟨rfl, s.taken_beq rs rt imm, s.retireTarget_beq rs rt imm⟩, nofun⟩
  | bne rs rt imm =>
    exact ⟨nofun, nofun, fun _ => ⟨rfl, s.taken_bne rs rt imm, s.retireTarget_bne rs rt imm⟩⟩

/-- Settles O40: a record comes from a dispatch, and a dispatch from a decoded word about to
execute. -/
theorem noOtherRetireEvent : Obligations.NoOtherRetireEvent := by
  intro s e he
  obtain ⟨htrace, w, i, hevent, rfl⟩ := State.retireEvent_eq_some_iff.1 he
  obtain ⟨hexec, hd⟩ := State.executes_of_event_dispatch hevent
  exact ⟨htrace, w, i, hexec, hd, rfl, rfl⟩

/-! ### Tracing has no effect (R40) -/

/-- The same block with `trace_en` at `b`. -/
def State.withTraceEn (s : State) (b : Bool) : State := { s with traceEn := b }

/-- The same outcome, a next state with `trace_en` at `b`. -/
def outcomeWithTraceEn (b : Bool) :
    Host.Outcome State Fault Refusal → Host.Outcome State Fault Refusal
  | .next t => .next (t.withTraceEn b)
  | .fault f => .fault f
  | .refused r => .refused r

section TraceEn

variable (s : State) (b : Bool)

theorem State.event_withTraceEn : (s.withTraceEn b).event = s.event := rfl

theorem State.resolve_withTraceEn (p : Option Int) :
    (s.withTraceEn b).resolve p = (s.resolve p).withTraceEn b := by
  cases p with
  | none => rfl
  | some k =>
    have sameTarget : (s.withTraceEn b).target k = s.target k := rfl
    have sameLen : (s.withTraceEn b).len = s.len := rfl
    simp only [State.resolve, sameTarget, sameLen]
    split
    · rfl
    · split
      · rfl
      · rfl

theorem State.endCycle_withTraceEn (p : Option Int) :
    (s.withTraceEn b).endCycle p = (s.endCycle p).withTraceEn b :=
  congrArg State.nextFree (s.clearX0.resolve_withTraceEn b p)

theorem exec_withTraceEn (i : Instr) :
    exec i (s.withTraceEn b) = outcomeWithTraceEn b (exec i s) := by
  have hhandled : (s.withTraceEn b).handled i = (s.handled i).withTraceEn b := by cases i <;> rfl
  have hpending : (s.withTraceEn b).pending i = s.pending i := by cases i <;> rfl
  rw [exec_eq_endCycle, exec_eq_endCycle, hhandled, hpending, State.endCycle_withTraceEn]
  rfl

/-- No event looks at `trace_en` or sets it. -/
theorem State.perform_withTraceEn (e : Event) :
    (s.withTraceEn b).perform e = outcomeWithTraceEn b (s.perform e) := by
  cases e with
  | reset => rfl
  | frozen => rfl
  | refuse => rfl
  | halt => rfl
  | fetchFault f => rfl
  | unimplemented op => rfl
  | dispatch w i => exact exec_withTraceEn s b i

theorem step_withTraceEn : step (s.withTraceEn b) = outcomeWithTraceEn b (step s) := by
  rw [step_of_event (s.event_withTraceEn b), State.perform_withTraceEn]
  rfl

end TraceEn

/-- Settles O38: the step of the block with `trace_en` changed is the step's outcome with `trace_en`
changed, whichever outcome it is. -/
theorem traceEnableHasNoEffect : Obligations.TraceEnableHasNoEffect :=
  fun s b => ⟨fun _ h => (step_withTraceEn s b).trans (congrArg _ h),
    fun _ h => (step_withTraceEn s b).trans (congrArg _ h),
    fun _ h => (step_withTraceEn s b).trans (congrArg _ h)⟩

end Sys2Proof.Machine
end

section
/-! PROOFS. Fatal conditions, the run-state machine and runs (spec/60_exceptions.md R151, R156,
spec/40_execution_cycle.md R108, R110, spec/20_memory.md R50): rejected words, the transition list,
reset, and what holds over any number of cycles. -/

namespace Sys2Proof.Machine

/-! ### Unimplemented words (R151, R79) -/

section Rejected

variable {s : State} {w : Word} {op : Opcode}

/-- Executing a rejected word is fatal: the record names its opcode and index, and nothing else but
the status changes. -/
theorem State.Executes.fatal_of_unimplemented (h : s.Executes w)
    (hd : decode w = .unimplemented op) :
    ∃ t, step s = .next t ∧ t.status = .haltedFatal ∧ t.faultCause = .unimplementedOpcode ∧
      t.faultOpcode = op ∧ t.faultPc = s.pc ∧ t.pc = s.pc ∧
      (∀ r, t.readReg r = s.readReg r) ∧ s.SameInputs t := by
  have hstep := h.step_of_unimplemented hd
  exact ⟨_, hstep, rfl, rfl, rfl, rfl, rfl, fun _ => rfl, sameInputs_of_step hstep⟩

/-- Legal opcode numbers leave opcode 0 to no operation (R79). -/
theorem classify_of_opcode_zero {m : OpcodeMap} (hm : m.wf) (h : (fields w).opcode = 0) :
    classify m w = .unimplemented 0 := by
  obtain ⟨-, -, -, hbeq, hbne⟩ := hm
  exact (classify_eq_unimplemented_iff _ _ _).2 ⟨h.symm, by decide, hbeq.symm, hbne.symm⟩

end Rejected

/-- Settles O31: such a word is rejected by its opcode, and a rejected word is fatal. -/
theorem otherOpcodeIsFatal : Obligations.OtherOpcodeIsFatal := by
  intro s w hexec haddi hbeq hbne
  have hd : decode w = .unimplemented (fields w).opcode :=
    (classify_eq_unimplemented_iff _ _ _).2 ⟨rfl, haddi, hbeq, hbne⟩
  obtain ⟨t, hstep, hstatus, hcause, hop, hfpc, hpc, hregs, hin⟩ := hexec.fatal_of_unimplemented hd
  exact ⟨t, hstep, hstatus, hcause, hop, hfpc, hpc, hregs, hin,
    hexec.retireEvent_of_unimplemented hd⟩

/-- Settles O32: no legal opcode number is 0, so opcode 0 is rejected, and that is fatal. -/
theorem opcodeZeroIsNeverSkipped : Obligations.OpcodeZeroIsNeverSkipped := by
  refine ⟨fun m w hm h => classify_of_opcode_zero hm h,
    fun m hm => classify_of_opcode_zero hm (by decide), fun s w hexec h => ?_⟩
  have hd : decode w = .unimplemented 0 := classify_of_opcode_zero opcodes_wf h
  obtain ⟨t, hstep, hstatus, hcause, hop, -⟩ := hexec.fatal_of_unimplemented hd
  exact ⟨hexec.retireEvent_of_unimplemented hd, t, hstep, hstatus, hcause, hop⟩

/-! ### The transition list (R156) and reset (R180 to R184) -/

/-- What an instruction of a running block leaves: the block running, or in Halted-Fatal with a
cause, pc and the registers where they were. -/
theorem status_row_of_exec {s t : State} {i : Instr} (hs : s.status = .running)
    (h : exec i s = .next t) :
    t.status = .running ∨
      (t.status = .haltedFatal ∧ t.faultCause ≠ .none ∧ t.pc = s.pc ∧ s.SameInputs t ∧
        ∀ r, r ≠ 0 → t.readReg r = s.readReg r) := by
  refine (status_of_exec h).imp (fun hkept => hkept.trans hs) fun hfatal => ?_
  obtain ⟨k, hp, -, -, rfl⟩ := exec_to_haltedFatal hs h hfatal
  exact ⟨hfatal, nofun, rfl, sameInputs_of_exec h,
    fun r hr => readReg_of_exec_of_pending h hp hr⟩

/-- Settles O33: the rows of the list are the ways a step comes about. -/
theorem runStateTransitionsAreClosed : Obligations.RunStateTransitionsAreClosed := by
  intro s t h
  refine ⟨fun hr => ?_, fun hr hs => ?_, fun hr hs => ?_⟩
  · obtain rfl := Host.Outcome.next.inj ((step_of_rst hr).symm.trans h)
    exact ⟨rfl, rfl⟩
  · exact Host.Outcome.next.inj (h.symm.trans (step_of_halted hr hs))
  · rcases step_cases h with ⟨hr', -⟩ | ⟨-, hs', -⟩ | ⟨-, -, -, hp, rfl⟩ |
      ⟨-, -, -, w, op, -, -, rfl⟩ | ⟨-, -, -, w, i, hf, hd, he⟩
    · simp [hr] at hr'
    · exact absurd hs hs'
    · exact .inr (.inl ⟨rfl, hp, rfl, ⟨rfl, rfl, rfl, rfl⟩, fun _ => rfl⟩)
    · exact .inr (.inr ⟨rfl, nofun, rfl, sameInputs_of_step h, fun _ _ => rfl⟩)
    · exact (status_row_of_exec hs he).imp (fun hrun => ⟨hrun, w, i, hf, hd, he⟩) .inr

/-- Settles O37: a step with `rst` asserted is the reset run, and so is `State.reset`. -/
theorem resetStartsANewRunFromAnyState : Obligations.ResetStartsANewRunFromAnyState :=
  ⟨State.reset.readReg_resetRun, rfl, rfl, fun s hr => ⟨s.resetRun, step_of_rst hr,
    s.readReg_resetRun, rfl, rfl, rfl, sameInputs_of_step (step_of_rst hr)⟩⟩

/-! ### Any number of cycles (R108, R110, R50) -/

section Runs

variable {n : Nat} {s t u : State}

/-- A run that completes one more cycle completes the first one. -/
theorem first_step_of_runFrom_succ (h : runFrom (n + 1) s = .next t) :
    ∃ u, step s = .next u ∧ runFrom n u = .next t := by
  cases hstep : step s with
  | next u => exact ⟨u, rfl, (runFrom_succ n s u hstep).symm.trans h⟩
  | fault f =>
    have hcore : core.step s = .fault f := hstep
    simp [runFrom, Host.Core.run, hcore] at h
  | refused r =>
    have hcore : core.step s = .refused r := hstep
    simp [runFrom, Host.Core.run, hcore] at h

/-- No number of cycles changes an input. -/
theorem sameInputs_of_runFrom (h : runFrom n s = .next t) : s.SameInputs t := by
  induction n generalizing s with
  | zero =>
    obtain rfl : s = t := Host.Outcome.next.inj h
    exact State.SameInputs.refl s
  | succ n ih =>
    obtain ⟨u, hstep, hrun⟩ := first_step_of_runFrom_succ h
    exact (sameInputs_of_step hstep).trans (ih hrun)

theorem runFrom_of_halted (hr : s.rst = false) (hs : s.status ≠ .running) (n : Nat) :
    runFrom n s = .next s := by
  induction n with
  | zero => rfl
  | succ n ih => rw [runFrom_succ n s s (step_of_halted hr hs), ih]

/-- Of two final states of a run neither comes first, so they are at one boundary. -/
theorem EndsIn.unique (ht : EndsIn s t) (hu : EndsIn s u) : t = u := by
  obtain ⟨n, hrunT, hstatusT, firstT⟩ := ht
  obtain ⟨m, hrunU, hstatusU, firstU⟩ := hu
  rcases Nat.lt_trichotomy n m with hlt | rfl | hlt
  · exact absurd (firstU n hlt t hrunT) hstatusT
  · exact Host.Outcome.next.inj (hrunT.symm.trans hrunU)
  · exact absurd (firstT m hlt u hrunU) hstatusU

theorem EndsIn.step_stays (hr : s.rst = false) (h : EndsIn s t) : step t = .next t := by
  obtain ⟨n, hrun, hstatus, -⟩ := h
  exact step_of_halted ((sameInputs_of_runFrom hrun).rst.trans hr) hstatus

end Runs

/-- Settles O27: a halted step answers the same state, and so does every number of them. -/
theorem haltedStatesAreFrozen : Obligations.HaltedStatesAreFrozen :=
  fun _ hr hs => ⟨State.retireEvent_of_halted hr hs, runFrom_of_halted hr hs⟩

/-- Settles O28: a run has one first boundary that is not Running, where the block is frozen. -/
theorem finalStateIsUnique : Obligations.FinalStateIsUnique :=
  fun _ _ _ hr ht hu => ⟨ht.unique hu, ht.step_stays hr⟩

/-- Settles O29: by induction on the number of cycles, PROG being one of the inputs. -/
theorem programIsFixedForTheRun : Obligations.ProgramIsFixedForTheRun := by
  intro n s t h
  have hin := sameInputs_of_runFrom h
  exact ⟨hin, fun i => by rw [hin.mem]⟩

/-! ### A word placed at pc (entry 6) -/

section PlacedWord

variable {s : State}

/-- An index that is not negative is the word in pc read as a number. -/
theorem State.pc_toInt_eq_toNat (h0 : 0 ≤ s.pc.toInt) : s.pc.toInt = s.pc.toNat :=
  BitVec.toInt_eq_toNat_of_lt (BitVec.toInt_pos_iff.1 h0)

/-- LEN then covers pc and is within its bound. -/
theorem State.lenCoveringPc_spec (h0 : 0 ≤ s.pc.toInt) (h1 : s.pc.toInt < 2147450880) :
    s.pc.toNat < s.lenCoveringPc.toNat ∧ lenOk s.lenCoveringPc := by
  rw [State.pc_toInt_eq_toNat h0] at h1
  unfold State.lenCoveringPc
  split
  · next hinside => exact hinside.symm
  · have hsum : (s.pc + 1).toNat = s.pc.toNat + 1 := BitVec.toNat_add_of_lt (by
      rw [show (1 : Word).toNat = 1 from rfl]
      omega)
    simp only [lenOk, Config.lenMax, hsum]
    omega

/-- The placed word stands at pc, and the block is about to execute it. -/
theorem State.executes_placeWord (hm : s.mem.wf) (h0 : 0 ≤ s.pc.toInt)
    (h1 : s.pc.toInt < 2147450880) (w : Word) : (s.placeWord w).Executes w := by
  obtain ⟨covered, inBound⟩ := State.lenCoveringPc_spec h0 h1
  have hpc := State.pc_toInt_eq_toNat h0
  refine ⟨rfl, rfl, inBound, State.fetch_eq_ok.2 ⟨⟨h0, ?_⟩, ?_⟩⟩
  · rw [State.placeWord_pc, hpc]
    exact Int.ofNat_lt.2 covered
  · rw [State.placeWord_mem, State.placeWord_pc, hpc, Int.toNat_natCast,
      Memory.imem_writeWord _ _ _ hm, if_pos rfl]

end PlacedWord

/-- Settles O30: the placed word is fetched, so the step is that of its instruction. -/
theorem placedWordIsTheOneRun : Obligations.PlacedWordIsTheOneRun := by
  intro s w hm h0 h1
  have hexec : (s.withFetchWord 32 w.toNat).Executes w := by
    rw [State.withFetchWord, tableWord_toNat]
    exact State.executes_placeWord hm h0 h1 w
  exact ⟨hexec, fun i hi => hexec.step_of_instr (decode_of_decodeTableWord hi)⟩

end Sys2Proof.Machine
end
